-- ==== Sys2Proof/Word.lean ====
section
/-! DEFINITION. The widths the DCB moves: the byte of R6 and the 32-bit register of R18. -/

namespace Sys2Proof

/-- An unsigned 8-bit value (R6): every byte of every stream. -/
abbrev Byte := BitVec 8

/-- A 32-bit register value (R11, R13, R15, R16, R18). -/
abbrev Word := BitVec 32

end Sys2Proof
end

