-- ==== Sys2Proof/Config.lean ====
section
/-! DEFINITION. What is fixed for one DCB: the format constants, the parameters, and the free values the spec leaves open. -/

namespace Sys2Proof

/-- The parameters of one DCB: the two capacities (R7, I19) and the reading of the match finder's eligibility rule
(I1; `false` is the reading of this spec, R62). They stand in State as its field `cfg`, so a claim about every
state is a claim about every configuration (log 1, log 16). -/
structure Config where
  /-- SRC_CAP, the number of bytes of SRC (R7). -/
  srcCap : Nat
  /-- DST_CAP, the number of bytes of DST (R7). -/
  dstCap : Nat
  /-- ENC_OVERLAP_SOURCE (I1): may a copy source of the encoder run into the bytes being matched? -/
  encOverlapSource : Bool
  deriving DecidableEq, Repr

namespace Config

/-- WINDOW (R1): the largest distance of a back-reference. -/
abbrev window : Nat := 2047

/-- MAX_MATCH (R2): the longest match. -/
abbrev maxMatch : Nat := 16

/-- MIN_MATCH (R3): the shortest match the encoder emits. -/
abbrev minMatch : Nat := 3

/-- MAX_LIT (R4): the longest literal run. -/
abbrev maxLit : Nat := 127

/-- The largest value of a 32-bit length register, the bound R7 sets on both capacities. -/
abbrev maxCap : Nat := 4294967295

/-- The configuration of 95_test_vectors.md ("Unless a vector says otherwise"), which State.reset takes.
DESIGN CHOICE (log 1): the spec leaves the capacities to the model's argument (R7). -/
def standard : Config := { srcCap := 4096, dstCap := 4129, encOverlapSource := false }

/-- FREE VALUE (log 6): the content of SRC byte `k` that the host has not written since the `r`-th reset
(R27, R124, I7). -/
opaque freeSrcByte (r k : Nat) : Byte

/-- FREE VALUE (log 7): an unspecified DST byte, at index `k`, for draw number `t` (R111, I4 to I7). -/
opaque freeDstByte (t k : Nat) : Byte

/-- FREE VALUE (log 8): what a read of DST_LEN returns while BUSY, for draw number `t` (R24, I4). -/
opaque freeDstLen (t : Nat) : Word

end Config

end Sys2Proof
end

