-- ==== Sys2Proof/Syntax.lean ====
section
/-! DEFINITION. The instruction set: the five rows of spec/opcode_table.json, one constructor each, and the names
they use. -/

namespace Sys2Proof

/-- CTRL.MODE (R20): 0 is encode, 1 is decode. -/
inductive Mode where
  | encode
  | decode
  deriving DecidableEq, Repr

/-- The instructions of the DCB: two token kinds (R50, R51) and three control commands (R59). -/
inductive Instr where
  /-- LIT: a literal run of the bytes `payload`, `L = payload.length` (R50, R88). -/
  | lit (payload : List Byte)
  /-- BREF d, l: copy `length` bytes from `distance` bytes back (R51, R89). -/
  | bref (distance length : Nat)
  /-- SET_MODE m (R103). -/
  | setMode (mode : Mode)
  /-- START_ENCODE (R104). -/
  | startEncode
  /-- START_DECODE (R105). -/
  | startDecode
  deriving DecidableEq, Repr

/-- LIT0, the literal run of no bytes (R60). -/
abbrev Instr.lit0 : Instr := .lit []

end Sys2Proof
end

