-- ==== Sys2Proof/Machine/State.lean ====
section
/-! DEFINITION. The state of a DCB as plain data, the reasons a step can stop, and the state after reset. -/

namespace Sys2Proof.Machine

/-- The engine's phase (R10). -/
inductive Phase where
  | idle
  | enc
  | dec
  deriving DecidableEq, Repr

/-- The fields of STATUS (R21); bits 31:5 are reserved, read 0 and hold nothing. -/
structure Status where
  busy : Bool
  done : Bool
  /-- STATUS.ERR, three bits (R22). -/
  err : BitVec 3
  deriving DecidableEq, Repr

/-- The pending literal-run buffer LB: an array of 127 bytes and a 7-bit count (R14). -/
structure LitBuf where
  bytes : Vector Byte 127
  count : BitVec 7
  deriving DecidableEq, Repr

/-- A byte buffer (SRC or DST): the bytes whose value is specified, addresses strictly rising. A byte that is not
listed has an unspecified value (R27, R28, R111). -/
abbrev Memory := List Host.Cell

/-- The canonical form of a buffer: addresses strictly rising. -/
abbrev Memory.wf (m : Memory) : Prop := m.Pairwise fun a b => a.1 < b.1

/-- What the host can do to the DCB: the accesses of 43_host_commands.md, and the reset input (R125; log 4). -/
inductive HostAction where
  /-- Read register `index` (R108). -/
  | regRead (index : Nat)
  /-- Write `w` to register `index` (R109). -/
  | regWrite (index : Nat) (w : Word)
  /-- Read SRC byte `k` (R110). -/
  | srcRead (k : Nat)
  /-- Write SRC byte `k` (R110). -/
  | srcWrite (k : Nat) (b : Byte)
  /-- Read DST byte `k` (R111). -/
  | dstRead (k : Nat)
  /-- Write DST byte `k` (R111). -/
  | dstWrite (k : Nat) (b : Byte)
  /-- Reset (R124, R125). -/
  | reset
  deriving DecidableEq, Repr

/-- What a host read returned. -/
inductive Reply where
  | register (w : Word)
  | byte (b : Byte)
  deriving DecidableEq, Repr

/-- The two agents (R9). -/
inductive Agent where
  | engine
  | host
  deriving DecidableEq, Repr

/-- The state of a DCB. INVENTORY.md's "State" gives each field's rule, width and reset value. -/
structure State where
  /-- The parameters of this DCB (R7, I1); no step changes them. -/
  cfg : Config
  /-- R10. -/
  phase : Phase
  /-- The operation's input length (R11). -/
  n : Word
  /-- The encoder's cursor (R13). -/
  i : Word
  /-- The pending literal run (R14). -/
  lb : LitBuf
  /-- The decoder's read cursor (R15). -/
  p : Word
  /-- The bytes appended by the current operation (R16). -/
  olen : Word
  /-- CTRL.MODE (R20). -/
  mode : Mode
  /-- STATUS (R21). -/
  status : Status
  /-- SRC_LEN (R23). -/
  srcLen : Word
  /-- DST_LEN (R24). -/
  dstLen : Word
  /-- SRC (R27). -/
  src : Memory
  /-- DST (R28). -/
  dst : Memory
  /-- The model's own: the host actions still to come, in program order (R42; log 4). -/
  host : List HostAction
  /-- The model's own: the interleaving still to be followed (R131; log 3). -/
  turns : List Agent
  /-- The model's own: what the host's last read returned (log 9). -/
  reply : Option Reply
  /-- The model's own: how many resets there have been (log 6, log 9). -/
  resets : Nat
  /-- The model's own: how many free values have been drawn (log 7, log 8, log 9). -/
  draws : Nat
  deriving DecidableEq, Repr

/-- Why a step stops the machine. The DCB's own errors (R112) are no reason: each is a next state (R114). -/
inductive Fault where
  /-- Raised by an engine step whose cursor lies beyond the input's end, a state the rules of the spec exclude
  (R13 `i ≤ n`, R15 `p ≤ n`) and no run from reset reaches. Safe: the machine stops there (log 13). -/
  | cursorPastEnd
  deriving DecidableEq, Repr

/-- What the model gives no meaning. -/
inductive Refusal where
  /-- An instruction without a meaning yet; raised by exec's arms only. Safe. -/
  | notModelled (mnemonic : String)
  /-- Raised by every step of a configuration that violates R7 or R8 (R8, I13). Safe: the spec refuses it. -/
  | badConfiguration
  /-- Raised by a host access to SRC at an index of SRC_CAP or more (R31, I12). Safe: the spec refuses it. -/
  | srcIndexOutside
  /-- Raised by a host access to DST at an index of DST_CAP or more (R31, I12). Safe: the spec refuses it. -/
  | dstIndexOutside
  deriving DecidableEq, Repr

/-- The DCB `c` right after its first reset (R124); nothing is pending. The array of LB holds
zeros (DESIGN CHOICE, log 10) and no byte of SRC or DST is specified (I7). -/
def State.resetOf (c : Config) : State where
  cfg := c
  phase := .idle
  n := 0
  i := 0
  lb := { bytes := Vector.replicate 127 0, count := 0 }
  p := 0
  olen := 0
  mode := .encode
  status := { busy := false, done := false, err := 0 }
  srcLen := 0
  dstLen := 0
  src := []
  dst := []
  host := []
  turns := []
  reply := none
  resets := 0
  draws := 0

/-- The machine right after reset (R124), in the configuration of the test vectors (log 1). -/
def State.reset : State := State.resetOf Config.standard

end Sys2Proof.Machine
end

