-- ==== Sys2Proof/Machine/Flags.lean ====
section
/-! DEFINITION. Everything the rules do to STATUS and the values CTRL and STATUS read as (R20 to R22, R108). -/

namespace Sys2Proof.Machine

/-- The errors an operation can end with (R112). -/
inductive ErrorKind where
  /-- TRUNCATED_LITERAL (R92). -/
  | truncatedLiteral
  /-- MALFORMED_STREAM (R93). -/
  | malformedStream
  /-- INVALID_BACK_REFERENCE (R94, R95). -/
  | invalidBackReference
  /-- OUTPUT_OVERFLOW (R96, R77). -/
  | outputOverflow
  deriving DecidableEq, Repr

/-- The value of STATUS.ERR for an error (R22, R112). -/
def ErrorKind.code : ErrorKind → BitVec 3
  | .truncatedLiteral => 1
  | .malformedStream => 2
  | .invalidBackReference => 3
  | .outputOverflow => 4

/-- STATUS after a START command: BUSY = 1, DONE = 0, ERR = 0 (R104, R105). -/
def statusStarted : Status := { busy := true, done := false, err := 0 }

/-- STATUS after a success: BUSY = 0, DONE = 1, ERR = 0 (R107). -/
def statusDone : Status := { busy := false, done := true, err := 0 }

/-- STATUS after an error: BUSY = 0, DONE = 1, ERR = the code (R114). -/
def statusFailed (e : ErrorKind) : Status := { busy := false, done := true, err := e.code }

/-- STATUS as a register: `{0:27, ERR:3, DONE:1, BUSY:1}` (R108). -/
def Status.toWord (t : Status) : Word := 0#27 ++ t.err ++ BitVec.ofBool t.done ++ BitVec.ofBool t.busy

/-- CTRL as a register: `{0:30, MODE:1, 0:1}`; START and the reserved bits read 0 (R20, R108). -/
def ctrlWord (m : Mode) : Word := 0#30 ++ BitVec.ofBool (decide (m = .decode)) ++ 0#1

end Sys2Proof.Machine
end

