-- ==== Sys2Proof/Machine/Ops.lean ====
section
/-! DEFINITION. The named operations over the buffers, the literal buffer and the engine's registers; the two ways an
operation ends (R107, R114); reset (R124). There is no return from an error (R115): STATUS keeps the code until the
next START or reset. -/

namespace Sys2Proof.Machine

/-! ## The configuration -/

/-- `ceil(a / b)` for `b > 0`. -/
def ceilDiv (a b : Nat) : Nat := (a + (b - 1)) / b

/-- The configurations a model accepts: R7's bounds and `DST_CAP ≥ SRC_CAP + ceil(SRC_CAP / 127)` (R8). -/
def configValid (c : Config) : Bool :=
  decide (c.srcCap ≤ Config.maxCap) && decide (c.dstCap ≤ Config.maxCap) &&
    decide (c.srcCap + ceilDiv c.srcCap Config.maxLit ≤ c.dstCap)

/-! ## Buffers -/

/-- The byte listed at index `k`, if its value is specified. -/
def Memory.read : Memory → Nat → Option Byte
  | [], _ => none
  | c :: m, k => if c.1 = k then some c.2 else Memory.read m k

/-- `m` with byte `b` at index `k`, in canonical form. -/
def Memory.write : Memory → Nat → Byte → Memory
  | [], k, b => [(k, b)]
  | c :: m, k, b =>
    if k < c.1 then (k, b) :: c :: m
    else if k = c.1 then (k, b) :: m
    else c :: Memory.write m k b

/-- `m` with only the bytes at indices below `bound` still specified. -/
def Memory.below (m : Memory) (bound : Nat) : Memory := m.filter fun c => decide (c.1 < bound)

/-- `m` with the bytes `bs` at index `k` and upward. -/
def Memory.writeAll : Memory → Nat → List Byte → Memory
  | m, _, [] => m
  | m, k, b :: bs => Memory.writeAll (m.write k b) (k + 1) bs

/-- `MemRead(SRC, k)` (R27). A byte not written since the last reset has one unknown value until it is written
(R12, R40, R110; log 6). -/
def srcByte (s : State) (k : Nat) : Byte := (s.src.read k).getD (Config.freeSrcByte s.resets k)

/-- `MemRead(DST, k)` (R28). The engine reads only indices below `olen`, which are listed (R45, R89); elsewhere the
value is free. -/
def dstByte (s : State) (k : Nat) : Byte := (s.dst.read k).getD (Config.freeDstByte s.draws k)

/-! ## The literal buffer (R14) -/

/-- LB as a sequence: the first `lbLen` bytes of the array. -/
def LitBuf.seq (b : LitBuf) : List Byte := b.bytes.toList.take b.count.toNat

/-- `LB <- append(LB, x)` (R75). -/
def LitBuf.push (b : LitBuf) (x : Byte) : LitBuf :=
  { bytes := b.bytes.setIfInBounds b.count.toNat x, count := b.count + 1 }

/-- `LB <- []` (R76): the count becomes 0 and the array keeps what it holds. -/
def LitBuf.clear (b : LitBuf) : LitBuf := { b with count := 0 }

/-! ## The engine's registers -/

/-- `p <- p + k` (R88, R89). -/
def State.advanceP (s : State) (k : Nat) : State := { s with p := s.p + BitVec.ofNat 32 k }

/-- `i <- i + k` (R74, R75). -/
def State.advanceI (s : State) (k : Nat) : State := { s with i := s.i + BitVec.ofNat 32 k }

/-- APPEND(b) (R90), and one round of EMIT's loop (R77): `DST[olen] <- b; olen <- olen + 1`. -/
def State.append (s : State) (b : Byte) : State :=
  { s with dst := s.dst.write s.olen.toNat b, olen := s.olen + 1 }

/-- Append the bytes `bs` in order. -/
def State.appendAll : State → List Byte → State
  | s, [] => s
  | s, b :: bs => (s.append b).appendAll bs

/-- The overlapping-copy handler (R89, R91): append `DST[base]`, `DST[base + 1]`, …, `length` bytes, each read after
every earlier byte of the copy has been appended. -/
def State.copyBack : State → (base length : Nat) → State
  | s, _, 0 => s
  | s, base, k + 1 => (s.append (dstByte s base)).copyBack (base + 1) k

/-! ## The end of an operation -/

/-- `complete` (R107): success. What lies past the output is unspecified from here on (R111, I6). -/
def complete (s : State) : State :=
  { s with phase := .idle, dstLen := s.olen, status := statusDone, dst := s.dst.below s.olen.toNat }

/-- `raise E` (R114): the error completion, this block's whole exception entry. No state is saved and no handler is
entered; every byte of DST is unspecified from here on (R98, I5). -/
def raise (e : ErrorKind) (s : State) : State :=
  { s with phase := .idle, dstLen := 0, status := statusFailed e, dst := [] }

/-- Reset (R124), also of a running operation (R125): the DCB as State.resetOf has it, with no byte of SRC and DST
specified. What belongs to the world outside the DCB stays: the configuration, the host's further actions, the turns and
the host's last reply (log 20). -/
def resetDcb (s : State) : State :=
  { State.resetOf s.cfg with
    host := s.host, turns := s.turns, reply := s.reply, resets := s.resets + 1, draws := s.draws }

/-! ## Starting an operation -/

/-- The common part of START_ENCODE and START_DECODE (R104, R105): latch MODE and `n`, set STATUS, enter the phase,
with no output yet (R72, R86). -/
def startOperation (m : Mode) (ph : Phase) (s : State) : State :=
  { s with mode := m, n := s.srcLen, status := statusStarted, phase := ph, olen := 0 }

/-- What an engine step answers: `.error` holds the state after an error completion, `.ok` the state of an operation
that goes on or has succeeded. Both are next states (R114). -/
def settle : Except State State → Host.Outcome State Fault Refusal
  | .ok s => .next s
  | .error s => .next s

end Sys2Proof.Machine
end

