-- ==== Sys2Proof/Machine/Command.lean ====
section
/-! DEFINITION. What the three control commands do (R103 to R106): each is ignored while BUSY. -/

namespace Sys2Proof.Machine

/-- SET_MODE (R103, R106). -/
def execSetMode (m : Mode) (s : State) : Host.Outcome State Fault Refusal :=
  if s.status.busy then .next s else .next { s with mode := m }

/-- START_ENCODE (R104, R106): the encode starts with `i = 0`, LB empty and `olen = 0` (R72). -/
def execStartEncode (s : State) : Host.Outcome State Fault Refusal :=
  if s.status.busy then .next s
  else .next { startOperation .encode .enc s with i := 0, lb := s.lb.clear }

/-- START_DECODE (R105, R106): the decode starts with `p = 0` and `olen = 0` (R86). -/
def execStartDecode (s : State) : Host.Outcome State Fault Refusal :=
  if s.status.busy then .next s
  else .next { startOperation .decode .dec s with p := 0 }

end Sys2Proof.Machine
end

