-- ==== Sys2Proof/WellFormed.lean ====
section
/-! DEFINITION. Which instruction terms the formats of 30_encoding.md admit. -/

namespace Sys2Proof

/-- The ranges of the formats: a LIT has at most 127 payload bytes (R50); a BREF has a distance of 0 to 2047 and a
length of 1 to 16 (R51). Every command is well formed (R59). A distance of 0 is a well-formed token that the
decoder answers with an error (R58, R95). -/
def Instr.wellFormed : Instr → Bool
  | .lit payload => decide (payload.length ≤ Config.maxLit)
  | .bref distance length =>
      decide (distance ≤ Config.window) && decide (1 ≤ length) && decide (length ≤ Config.maxMatch)
  | .setMode _ => true
  | .startEncode => true
  | .startDecode => true

end Sys2Proof
end

