-- ==== Sys2Proof/Decode.lean ====
section
/-! DEFINITION. The deserializer of tokens (R49, R54, R55) and the decoding of CTRL writes (R59); after them the
encoder of both, which is the DCB's serializer (R52, R53). -/

namespace Sys2Proof

/-! ## The fields of a token (R54) -/

/-- The tag bit, bit 7 of a token's first byte (R49): `false` is a LIT, `true` a BREF. -/
def tagBit (b0 : Byte) : Bool := b0.getLsbD 7

/-- `L = b0 & 0x7F` (R54). -/
def litCount (b0 : Byte) : Nat := (b0 &&& 0x7F#8).toNat

/-- `distance = ((b0 & 0x7F) << 4) | (b1 >> 4)`, both bytes unsigned (R54, C2). -/
def brefDistance (b0 b1 : Byte) : Nat := ((b0 &&& 0x7F#8).toNat <<< 4) ||| (b1 >>> 4).toNat

/-- `length = (b1 & 0x0F) + 1` (R54). -/
def brefLength (b1 : Byte) : Nat := (b1 &&& 0x0F#8).toNat + 1

/-- The size in bytes of the token that begins with `b0` (R55). -/
def tokenSize (b0 : Byte) : Nat := if tagBit b0 then 2 else 1 + litCount b0

/-! ## Decoding -/

/-- Why the bytes of a stream begin with no whole token. No byte value is illegal (R58), so each reason is that
bytes are missing. -/
inductive Reject where
  /-- There is no byte at all. -/
  | emptyStream
  /-- Fewer payload bytes follow a LIT's count byte than it counts (R92). -/
  | truncatedLiteral
  /-- A BREF's tag byte is the last byte (R93). -/
  | missingSecondByte
  deriving DecidableEq, Repr

/-- The first token of a byte stream and the bytes after it (R49, R50, R51, R54). -/
def decodeToken : List Byte → Except Reject (Instr × List Byte)
  | [] => .error .emptyStream
  | b0 :: rest =>
    if tagBit b0 then
      match rest with
      | [] => .error .missingSecondByte
      | b1 :: rest' => .ok (.bref (brefDistance b0 b1) (brefLength b1), rest')
    else if rest.length < litCount b0 then .error .truncatedLiteral
    else .ok (.lit (rest.take (litCount b0)), rest.drop (litCount b0))

/-- The command a CTRL write of `w` gives: `w[1:0]` decides and `w[31:2]` is ignored (R59). -/
def decodeCtrl (w : Word) : Instr :=
  match w.getLsbD 1, w.getLsbD 0 with
  | false, false => .setMode .encode
  | true, false => .setMode .decode
  | false, true => .startEncode
  | true, true => .startDecode

/-- An instruction as the hardware holds it: bytes of a compressed stream, or the value of one CTRL write. -/
inductive Code where
  | stream (bytes : List Byte)
  | ctrl (w : Word)
  deriving DecidableEq, Repr

/-- Decoding in either vocabulary; of a stream, the first token and the bytes after it. -/
def decode : Code → Except Reject (Instr × List Byte)
  | .stream bytes => decodeToken bytes
  | .ctrl w => .ok (decodeCtrl w, [])

/-! ## Encoding -/

/-- `serLIT(B)`: the count byte and the payload (R52). -/
def serLit (payload : List Byte) : List Byte := BitVec.ofNat 8 payload.length :: payload

/-- `serBREF(d, l)`: `b0 = 0x80 | (d >> 4)` and `b1 = ((d & 0x0F) << 4) | (l - 1)` (R53). -/
def serBref (distance length : Nat) : List Byte :=
  [BitVec.ofNat 8 (0x80 ||| (distance >>> 4)), BitVec.ofNat 8 (((distance &&& 0x0F) <<< 4) ||| (length - 1))]

/-- The bit of CTRL.MODE (R20). -/
def Mode.bit : Mode → Bool
  | .encode => false
  | .decode => true

/-- The encoding of an instruction: a token as serialized (R52, R53), a command as the CTRL value of R60. -/
def encode : Instr → Code
  | .lit payload => .stream (serLit payload)
  | .bref distance length => .stream (serBref distance length)
  | .setMode m => .ctrl (BitVec.ofNat 32 (m.bit.toNat <<< 1))
  | .startEncode => .ctrl 0x1#32
  | .startDecode => .ctrl 0x3#32

/-! ## The opcode table's words -/

/-- The bytes of the table word `w` of `nbits` bits, as a stream: LIT's row is one byte and BREF's row one 16-bit
value whose bits 15:8 are byte 0 (R32, and the row's own format); zeros follow it up to the longest token, 128
bytes (log 14). `none` for a width no token row has. -/
def tableStream (nbits w : Nat) : Option (List Byte) :=
  match nbits with
  | 8 => some (BitVec.ofNat 8 w :: List.replicate 127 0#8)
  | 16 => some (BitVec.ofNat 8 (w >>> 8) :: BitVec.ofNat 8 w :: List.replicate 126 0#8)
  | _ => none

/-- What the decoder reads from the opcode table's word `w` of `nbits` bits: a token for 8 and 16 bits, a CTRL write
for 32 bits, nothing for a width the table does not have. -/
def decodeTableWord (nbits w : Nat) : Option Instr :=
  match nbits with
  | 32 => some (decodeCtrl (BitVec.ofNat 32 w))
  | _ =>
    match tableStream nbits w with
    | none => none
    | some bytes =>
      match decodeToken bytes with
      | .ok (i, _) => some i
      | .error _ => none

end Sys2Proof
end

