-- ==== Sys2Proof/Machine/Operands.lean ====
section
/-! DEFINITION. What the engine and the host read: the operation's input, the token at the cursor, the registers. -/

namespace Sys2Proof.Machine

/-- The operation's input `S = SRC[0..n)` (R12). -/
def State.input (s : State) : List Byte := (List.range s.n.toNat).map (srcByte s)

/-- The bytes of the compressed stream from the decoder's cursor on, `S[p..n)`. -/
def State.tokenBytes (s : State) : List Byte := s.input.drop s.p.toNat

/-- The number of bytes in the literal buffer, `lbLen` (R14). -/
def State.lbLen (s : State) : Nat := s.lb.count.toNat

/-- What a host read of register `r` returns (R108): CTRL, STATUS, SRC_LEN, DST_LEN, and 0 for every other index (R19).
DST_LEN while BUSY is a free value (R24, log 8). -/
def readRegister (s : State) (r : Nat) : Word :=
  match r with
  | 0 => ctrlWord s.mode
  | 1 => s.status.toWord
  | 2 => s.srcLen
  | 3 => if s.status.busy then Config.freeDstLen s.draws else s.dstLen
  | _ => 0

/-- What a host read of DST byte `k` returns (R111): a free value while BUSY, else the byte where it is specified and
a free value where it is not (log 7). -/
def readDst (s : State) (k : Nat) : Byte :=
  if s.status.busy then Config.freeDstByte s.draws k else dstByte s k

end Sys2Proof.Machine
end

