-- ==== Sys2Proof/Machine/Token.lean ====
section
/-! DEFINITION. What the two tokens of a compressed stream do (R88 to R96). The order of the checks is R113's, and
every check is made before the token appends a byte. -/

namespace Sys2Proof.Machine

/-- DEC-LIT (R88): LIT with `L = payload.length`. -/
def execLit (payload : List Byte) (s : State) : Host.Outcome State Fault Refusal :=
  if s.n.toNat < s.p.toNat + 1 + payload.length then .next (raise .truncatedLiteral s)
  else if s.cfg.dstCap < s.olen.toNat + payload.length then .next (raise .outputOverflow s)
  else .next ((s.appendAll payload).advanceP (1 + payload.length))

/-- DEC-BREF (R89). The check `base < 0` is `olen < distance`. -/
def execBref (distance length : Nat) (s : State) : Host.Outcome State Fault Refusal :=
  if s.n.toNat ≤ s.p.toNat + 1 then .next (raise .malformedStream s)
  else if s.olen.toNat < distance then .next (raise .invalidBackReference s)
  else if distance = 0 then .next (raise .invalidBackReference s)
  else if s.cfg.dstCap < s.olen.toNat + length then .next (raise .outputOverflow s)
  else .next ((s.copyBack (s.olen.toNat - distance) length).advanceP 2)

end Sys2Proof.Machine
end

