-- ==== Sys2Proof/Machine/Dispatch.lean ====
section
/-! DEFINITION. One arm per instruction of spec/opcode_table.json. -/

namespace Sys2Proof.Machine

def exec (i : Instr) (s : State) : Host.Outcome State Fault Refusal :=
  match i with
  | .lit payload => Sys2Proof.Machine.execLit payload s
  | .bref distance length => Sys2Proof.Machine.execBref distance length s
  | .setMode m => Sys2Proof.Machine.execSetMode m s
  | .startEncode => Sys2Proof.Machine.execStartEncode s
  | .startDecode => Sys2Proof.Machine.execStartDecode s

end Sys2Proof.Machine
end

