-- ==== Sys2Proof/Machine/MatchFinder.lean ====
section
/-! DEFINITION. MF, the encoder's sliding-window search (R61 to R71). It reads the input `S` and writes nothing. -/

namespace Sys2Proof.Machine

/-- `S[a..b)`. -/
def slice (S : List Byte) (a b : Nat) : List Byte := (S.drop a).take (b - a)

/-- `lo = max(0, i − 2047)` (R61). -/
def windowLow (i : Nat) : Nat := i - Config.window

/-- `eligible(j, k)` at cursor `i` (R62): `lo ≤ j` and `j + k ≤ i`. Under ENC_OVERLAP_SOURCE the second condition is
`j < i` (I1). -/
def eligible (overlap : Bool) (i j k : Nat) : Bool :=
  decide (windowLow i ≤ j) && (if overlap then decide (j < i) else decide (j + k ≤ i))

/-- `j ∈ J(k)` at cursor `i` (R63). -/
def occursAt (overlap : Bool) (S : List Byte) (i k j : Nat) : Bool :=
  eligible overlap i j k && decide (slice S j (j + k) = slice S i (i + k))

/-- The greatest `j < bound` in `J(k)`, if there is one; with `bound = i` it is `max(J(k))` (R66). -/
def nearest (overlap : Bool) (S : List Byte) (i k : Nat) : (bound : Nat) → Option Nat
  | 0 => none
  | j + 1 => if occursAt overlap S i k j then some j else nearest overlap S i k j

/-- The loop of R65 from candidate length `k` on, at most `fuel` rounds: the first length that does not occur, or that
runs past the input, ends the search. -/
def searchFrom (overlap : Bool) (S : List Byte) (i : Nat) : (fuel k : Nat) → Option (Nat × Nat) → Option (Nat × Nat)
  | 0, _, best => best
  | fuel + 1, k, best =>
    if i + k ≤ S.length then
      match nearest overlap S i k i with
      | none => best
      | some j => searchFrom overlap S i fuel (k + 1) (some (i - j, k))
    else best

/-- `MF(S, n, i)` with `n = len(S)` (R65): none, or the distance and the length of the match. The loop tries the
lengths 3 to 16, 14 rounds. -/
def matchFind (overlap : Bool) (S : List Byte) (i : Nat) : Option (Nat × Nat) :=
  if S.length < i + Config.minMatch then none
  else searchFrom overlap S i (Config.maxMatch + 1 - Config.minMatch) Config.minMatch none

end Sys2Proof.Machine
end

