-- ==== Sys2Proof/Machine/Encoder.lean ====
section
/-! DEFINITION. The encoder's step and its parts (R73 to R78). An `.error` holds the state after an error
completion. -/

namespace Sys2Proof.Machine

/-- EMIT(T) (R77). -/
def emit (t : List Byte) (s : State) : Except State State :=
  if s.cfg.dstCap < s.olen.toNat + t.length then .error (raise .outputOverflow s) else .ok (s.appendAll t)

/-- FLUSH (R76): emit LB as a LIT, then empty it. -/
def flush (s : State) : Except State State :=
  match emit (serLit s.lb.seq) s with
  | .error f => .error f
  | .ok s' => .ok { s' with lb := s'.lb.clear }

/-- `if lbLen > 0: FLUSH` (R74, R78). -/
def flushPending (s : State) : Except State State := if 0 < s.lbLen then flush s else .ok s

/-- ENC-MATCH(d, l) (R74). -/
def encMatch (d l : Nat) (s : State) : Except State State :=
  match flushPending s with
  | .error f => .error f
  | .ok s1 =>
    match emit (serBref d l) s1 with
    | .error f => .error f
    | .ok s2 => .ok (s2.advanceI l)

/-- `LB <- append(LB, S[i]); i <- i + 1`, the first half of ENC-LITERAL (R75). -/
def takeLiteral (s : State) : State := ({ s with lb := s.lb.push (srcByte s s.i.toNat) } : State).advanceI 1

/-- ENC-LITERAL (R75): the flush at 127 bytes happens within the same step. -/
def encLiteral (s : State) : Except State State :=
  if (takeLiteral s).lbLen = Config.maxLit then flush (takeLiteral s) else .ok (takeLiteral s)

/-- ENC-FINISH (R78). -/
def encFinish (s : State) : Except State State :=
  match flushPending s with
  | .error f => .error f
  | .ok s' => .ok (complete s')

/-- ENC-STEP (R73). A cursor beyond `n`, which R13 excludes, stops the machine (log 13). -/
def encStep (s : State) : Host.Outcome State Fault Refusal :=
  if s.i = s.n then settle (encFinish s)
  else if s.n.toNat < s.i.toNat then .fault .cursorPastEnd
  else
    match matchFind s.cfg.encOverlapSource s.input s.i.toNat with
    | some (d, l) => settle (encMatch d l s)
    | none => settle (encLiteral s)

end Sys2Proof.Machine
end

