-- ==== Sys2Proof/Machine/Turn.lean ====
section
/-! DEFINITION. Whose turn it is (R131), the decoder's step (R87), the host's accesses (R108 to R111), and the placing
of an instruction where the next step runs it. -/

namespace Sys2Proof.Machine

/-- DEC-STEP (R87): success at `p = n` (R97), else the token at `p`. The bytes a token misses are the errors of R92 and
R93; a cursor beyond `n`, which R15 excludes, stops the machine (log 13, log 18). -/
def decStep (s : State) : Host.Outcome State Fault Refusal :=
  if s.p = s.n then .next (complete s)
  else
    match decodeToken s.tokenBytes with
    | .ok (i, _) => exec i s
    | .error .truncatedLiteral => .next (raise .truncatedLiteral s)
    | .error .missingSecondByte => .next (raise .malformedStream s)
    | .error .emptyStream => .fault .cursorPastEnd

/-- The engine's turn: a step of the running operation; when idle it takes no step (R10, R123). -/
def engineTurn (s : State) : Host.Outcome State Fault Refusal :=
  match s.phase with
  | .idle => .next s
  | .enc => encStep s
  | .dec => decStep s

/-- A host write of `w` to SRC_LEN (R23): ignored while BUSY and above SRC_CAP. -/
def writeSrcLen (w : Word) (s : State) : State :=
  if s.status.busy then s else if w.toNat ≤ s.cfg.srcCap then { s with srcLen := w } else s

/-- A host write of `w` to register `r` (R109). A CTRL write is a command (R59); STATUS, DST_LEN and every index above
3 ignore it. -/
def writeRegister (r : Nat) (w : Word) (s : State) : Host.Outcome State Fault Refusal :=
  match r with
  | 0 => exec (decodeCtrl w) s
  | 2 => .next (writeSrcLen w s)
  | _ => .next s

/-- A host write of byte `b` to SRC index `k` (R110), ignored while BUSY. -/
def writeSrc (k : Nat) (b : Byte) (s : State) : State :=
  if s.status.busy then s else { s with src := s.src.write k b }

/-- A host write of byte `b` to DST index `k` (R111), ignored while BUSY. -/
def writeDst (k : Nat) (b : Byte) (s : State) : State :=
  if s.status.busy then s else { s with dst := s.dst.write k b }

/-- The host's read returns `r`; one more free value may have been drawn (log 7, log 8). -/
def answer (r : Reply) (s : State) : State := { s with reply := some r, draws := s.draws + 1 }

/-- The effect of one host action (R108 to R111, R124). A buffer index at or beyond the capacity is refused (R31). -/
def hostAccess (a : HostAction) (s : State) : Host.Outcome State Fault Refusal :=
  match a with
  | .regRead r => .next (answer (.register (readRegister s r)) s)
  | .regWrite r w => writeRegister r w s
  | .srcRead k => if k < s.cfg.srcCap then .next (answer (.byte (srcByte s k)) s) else .refused .srcIndexOutside
  | .srcWrite k b => if k < s.cfg.srcCap then .next (writeSrc k b s) else .refused .srcIndexOutside
  | .dstRead k => if k < s.cfg.dstCap then .next (answer (.byte (readDst s k)) s) else .refused .dstIndexOutside
  | .dstWrite k b => if k < s.cfg.dstCap then .next (writeDst k b s) else .refused .dstIndexOutside
  | .reset => .next (resetDcb s)

/-- The host's turn: its next action, if it has one. -/
def hostTurn (s : State) : Host.Outcome State Fault Refusal :=
  match s.host with
  | [] => .next s
  | a :: rest => hostAccess a { s with host := rest }

/-- Who moves next (R131): the agent the list of turns names; after the list, the engine while it runs an operation
(the fairness of R131), then the host while it has actions, then nobody (log 3). -/
def nextTurn (s : State) : Option Agent :=
  match s.turns with
  | a :: _ => some a
  | [] => if s.phase ≠ .idle then some .engine else if s.host ≠ [] then some .host else none

/-- The state with its next turn taken off the list. -/
def takeTurn (s : State) : State := { s with turns := s.turns.tail }

/-- The move of one agent. -/
def turn (a : Agent) (s : State) : Host.Outcome State Fault Refusal :=
  match a with
  | .engine => engineTurn s
  | .host => hostTurn s

/-- A running decode whose next token is the first token of `bytes`, the last token of the stream: the bytes stand in
SRC at `p`, and the engine has the next turn (log 15). -/
def loadToken (bytes : List Byte) (s : State) : State :=
  { s with
    phase := .dec, mode := .decode, status := statusStarted
    n := s.p + BitVec.ofNat 32 (tokenSize (bytes.headD 0))
    src := s.src.writeAll s.p.toNat bytes
    turns := .engine :: s.turns }

/-- The host's next action is a CTRL write of `w`, and the host has the next turn (log 15). -/
def loadCommand (w : Word) (s : State) : State :=
  { s with host := .regWrite 0 w :: s.host, turns := .host :: s.turns }

end Sys2Proof.Machine
end

