-- ==== Sys2Proof/Machine/Step.lean ====
section
/-! DEFINITION. One step of the machine, and the placing of an instruction where the next step runs it. -/

namespace Sys2Proof.Machine

/-- One step: a configuration that violates R7 or R8 is refused (R8); else the next agent moves, and a machine in which
nobody has anything to do rests (R123, log 22). -/
def step (s : State) : Host.Outcome State Fault Refusal :=
  if configValid s.cfg then
    match nextTurn s with
    | some a => turn a (takeTurn s)
    | none => .next s
  else .refused .badConfiguration

/-- `s` with the opcode table's word `w` of `nbits` bits placed where the next step runs it: a token in the stream of a
running decode, a command as the host's next CTRL write (log 14, log 15). -/
def State.withFetchWord (s : State) (nbits w : Nat) : State :=
  match nbits with
  | 32 => loadCommand (BitVec.ofNat 32 w) s
  | _ =>
    match tableStream nbits w with
    | none => s
    | some bytes => loadToken bytes s

end Sys2Proof.Machine
end

