-- ==== Sys2Proof/Machine/Reference.lean ====
section
/-! DEFINITION. ENCODE (R79) and DECODE (R100): what a whole operation computes, as functions of the input alone,
written from those rules and not from the machine. -/

namespace Sys2Proof.Machine

/-! ## ENCODE -/

/-- `if len(LB) > 0: serLIT(LB)` (R79). -/
def litIfAny (lb : List Byte) : List Byte := if lb = [] then [] else serLit lb

/-- The loop of ENCODE (R79) from cursor `i` with pending literals `lb`, at most `fuel` rounds, and its last line: the
bytes it still emits. -/
def encodeFrom (overlap : Bool) (S : List Byte) : (fuel i : Nat) → (lb : List Byte) → List Byte
  | 0, _, lb => litIfAny lb
  | fuel + 1, i, lb =>
    if i < S.length then
      match matchFind overlap S i with
      | some (d, l) => litIfAny lb ++ serBref d l ++ encodeFrom overlap S fuel (i + l) []
      | none =>
        if lb.length + 1 = Config.maxLit then
          serLit (lb ++ [S.getD i 0]) ++ encodeFrom overlap S fuel (i + 1) []
        else encodeFrom overlap S fuel (i + 1) (lb ++ [S.getD i 0])
    else litIfAny lb

/-- `ENCODE(S)` (R79). Every round consumes at least one byte (R85), so `len(S)` rounds reach the end. -/
def encodeBytes (overlap : Bool) (S : List Byte) : List Byte := encodeFrom overlap S S.length 0 []

/-! ## DECODE -/

/-- `for k in 0 .. l - 1: out <- append(out, out[len(out) - d])` (R100). -/
def copyOut (d : Nat) : (l : Nat) → (out : List Byte) → List Byte
  | 0, out => out
  | l + 1, out => copyOut d l (out ++ [out.getD (out.length - d) 0])

/-- The loop of DECODE (R100) from cursor `p` with output `out`, at most `fuel` rounds. -/
def decodeFrom (dstCap : Nat) (C : List Byte) : (fuel p : Nat) → (out : List Byte) → Except ErrorKind (List Byte)
  | 0, _, out => .ok out
  | fuel + 1, p, out =>
    if p < C.length then
      let b0 := C.getD p 0
      if tagBit b0 = false then
        let L := litCount b0
        if C.length < p + 1 + L then .error .truncatedLiteral
        else if dstCap < out.length + L then .error .outputOverflow
        else decodeFrom dstCap C fuel (p + 1 + L) (out ++ slice C (p + 1) (p + 1 + L))
      else if C.length ≤ p + 1 then .error .malformedStream
      else
        let b1 := C.getD (p + 1) 0
        let d := brefDistance b0 b1
        let l := brefLength b1
        if out.length < d ∨ d = 0 then .error .invalidBackReference
        else if dstCap < out.length + l then .error .outputOverflow
        else decodeFrom dstCap C fuel (p + 2) (copyOut d l out)
    else .ok out

/-- `DECODE(C)` for a given DST_CAP (R100). Every round consumes at least one byte (R99). -/
def decodeBytes (dstCap : Nat) (C : List Byte) : Except ErrorKind (List Byte) := decodeFrom dstCap C C.length 0 []

end Sys2Proof.Machine
end

