-- ==== Sys2Proof/Safety.lean ====
section
/-! DEFINITION. The terms the claims use: the invariant of the DCB, who moves, what one step appended, what the host
can see. -/

namespace Sys2Proof.Machine

/-- The invariant of the DCB: the bounds and relations the rules of 10_state.md, 20_memory.md and 41_encoder.md state
of its registers and buffers. -/
structure Inv (s : State) : Prop where
  /-- The configuration is one a model accepts (R7, R8). -/
  config : configValid s.cfg = true
  /-- SRC is in canonical form. -/
  srcWf : s.src.wf
  /-- DST is in canonical form. -/
  dstWf : s.dst.wf
  /-- SRC has no byte at SRC_CAP or beyond (R27). -/
  srcInside : ∀ c ∈ s.src, c.1 < s.cfg.srcCap
  /-- DST has no byte at DST_CAP or beyond (R28). -/
  dstInside : ∀ c ∈ s.dst, c.1 < s.cfg.dstCap
  /-- `SRC_LEN ≤ SRC_CAP` always holds (R23). -/
  srcLenBound : s.srcLen.toNat ≤ s.cfg.srcCap
  /-- `n ≤ SRC_CAP` (R11). -/
  nBound : s.n.toNat ≤ s.cfg.srcCap
  /-- `i ≤ n` while an encode runs (R13). -/
  iBound : s.phase = .enc → s.i.toNat ≤ s.n.toNat
  /-- `p ≤ n` while a decode runs (R15). -/
  pBound : s.phase = .dec → s.p.toNat ≤ s.n.toNat
  /-- `olen ≤ DST_CAP` (R16). -/
  olenBound : s.olen.toNat ≤ s.cfg.dstCap
  /-- Between two steps `lbLen ≤ 126` (R14). -/
  lbBound : s.lbLen ≤ 126
  /-- BUSY is 1 exactly while an operation runs (R21). -/
  busyPhase : s.status.busy = true ↔ s.phase ≠ .idle
  /-- BUSY and DONE are never both 1 (R21). -/
  notBoth : ¬ (s.status.busy = true ∧ s.status.done = true)
  /-- ERR is at most 4 (R22, I16). -/
  errBound : s.status.err.toNat ≤ 4
  /-- ERR is 0 unless an operation has completed: in particular 0 while BUSY (R21). -/
  errDone : s.status.done = false → s.status.err = 0
  /-- DST_LEN is 0 while STATUS shows an error (R24, R114). -/
  dstLenErr : s.status.err ≠ 0 → s.dstLen = 0
  /-- Every byte a running operation has appended is specified (R16, R45). -/
  outputListed : s.phase ≠ .idle → ∀ k < s.olen.toNat, s.dst.read k ≠ none
  /-- While idle, every output byte DST_LEN counts is specified (R107, R111). -/
  resultListed : s.phase = .idle → ∀ k < s.dstLen.toNat, s.dst.read k ≠ none
  /-- The expansion bound while an encode runs, in the form each step keeps (R84): every full literal run spends one
  byte on 127, and no other token is longer than what it stands for. -/
  expansion : s.phase = .enc → 127 * s.olen.toNat + 128 * s.lbLen ≤ 128 * s.i.toNat

/-- The configuration is accepted and the next move is the engine's. -/
def EngineMoves (s : State) : Prop := configValid s.cfg = true ∧ nextTurn s = some .engine

/-- The configuration is accepted and the next move is the host's action `a`, with `rest` still to come. -/
def HostMoves (s : State) (a : HostAction) (rest : List HostAction) : Prop :=
  configValid s.cfg = true ∧ nextTurn s = some .host ∧ s.host = a :: rest

/-- The state in which the host's action takes effect: its turn and the action itself are taken off their lists. -/
def hostTook (s : State) (rest : List HostAction) : State := { takeTurn s with host := rest }

/-- From `s` to `t`, exactly the bytes `bs` were appended to DST: they stand from `olen` on, `olen` counts them, and
every other byte reads as before (R16, R90). -/
def AppendsExactly (s t : State) (bs : List Byte) : Prop :=
  t.olen.toNat = s.olen.toNat + bs.length ∧
  (∀ (k : Nat) (h : k < bs.length), t.dst.read (s.olen.toNat + k) = some bs[k]) ∧
  (∀ j, (j < s.olen.toNat ∨ s.olen.toNat + bs.length ≤ j) → t.dst.read j = s.dst.read j)

/-- The output of the running operation, `OUT = DST[0..olen)` (R16). -/
def State.output (s : State) : List Byte := (List.range s.olen.toNat).map (dstByte s)

/-- What a running decode will answer: R100's loop, from the cursor and the output the state holds. -/
def decodeRemaining (s : State) : Except ErrorKind (List Byte) :=
  decodeFrom s.cfg.dstCap s.input (s.n.toNat - s.p.toNat) s.p.toNat s.output

/-- What a running encode will answer: the output so far and the rest of R79's loop. -/
def encodeRemaining (s : State) : List Byte :=
  s.output ++ encodeFrom s.cfg.encOverlapSource s.input (s.n.toNat - s.i.toNat) s.i.toNat s.lb.seq

/-- The DCB reports the result `r` (R79, R100): on success ERR = 0, DST_LEN is the length of the output and DST holds it;
on an error ERR is its code and DST_LEN = 0. -/
def Reports (t : State) (r : Except ErrorKind (List Byte)) : Prop :=
  t.phase = .idle ∧
  match r with
  | .ok out => t.status = { busy := false, done := true, err := 0 } ∧ t.dstLen.toNat = out.length ∧
      ∀ (j : Nat) (h : j < out.length), t.dst.read j = some out[j]
  | .error e => t.status = { busy := false, done := true, err := e.code } ∧ t.dstLen = 0

/-- What the host can see of a state: everything but the engine's registers and LB (R26). -/
def visible (s : State) : State := { s with n := 0, i := 0, lb := State.reset.lb, p := 0, olen := 0 }

/-- The tokens an encode may emit: a LIT of 1 to 127 bytes, or a BREF of length 3 to 16 and of a distance from the
length to 2047 (R57, R82). -/
def Emittable : Instr → Prop
  | .lit payload => 1 ≤ payload.length ∧ payload.length ≤ 127
  | .bref d l => 3 ≤ l ∧ l ≤ 16 ∧ l ≤ d ∧ d ≤ 2047
  | .setMode _ => False
  | .startEncode => False
  | .startDecode => False

/-- `i` is a LIT of fewer than 127 bytes (R83). -/
def ShortLit : Instr → Prop
  | .lit payload => payload.length < 127
  | .bref _ _ => False
  | .setMode _ => False
  | .startEncode => False
  | .startDecode => False

/-- `i` is a BREF (R83). -/
def IsBref : Instr → Prop
  | .lit _ => False
  | .bref _ _ => True
  | .setMode _ => False
  | .startEncode => False
  | .startDecode => False

/-- `bs` is the concatenation of the serialized tokens `ts` (R48, R79). -/
def Serializes : List Instr → List Byte → Prop
  | [], bs => bs = []
  | i :: ts, bs => ∃ tok rest, encode i = .stream tok ∧ bs = tok ++ rest ∧ Serializes ts rest

end Sys2Proof.Machine
end

