-- ==== Sys2Proof/Certificates/Slice0/Obligations.lean ====
section
/-! DEFINITION. The statements for the provers. -/

open Sys2Proof Sys2Proof.Machine

/-! ## Encoding -/

/-- Decoding an encoded well-formed instruction gives it back, whatever follows it in the stream (R56). -/
def Obligations.DecodeEncodeAgree : Prop :=
  ∀ (i : Instr) (rest : List Byte), i.wellFormed = true →
    match encode i with
    | .stream tok => decodeToken (tok ++ rest) = .ok (i, rest)
    | .ctrl w => decodeCtrl w = i

/-- A token read from a stream is well formed, and the stream is that token's encoding and the rest: every token has one
encoding, of the size its first byte tells (R50, R51, R55). -/
def Obligations.DecodedTokenReencodes : Prop :=
  ∀ (bs : List Byte) (i : Instr) (rest : List Byte), decodeToken bs = .ok (i, rest) →
    i.wellFormed = true ∧
    ∃ tok, encode i = .stream tok ∧ bs = tok ++ rest ∧ tok.length = tokenSize (bs.headD 0)

/-- The kind of a token is bit 7 of its first byte, and every byte value is a valid first byte: 0x00 to 0x7F begin a LIT
and 0x80 to 0xFF begin a BREF, with the fields of R54 (R49, R54). -/
def Obligations.EveryByteBeginsAToken : Prop :=
  ∀ (b0 : Byte) (rest : List Byte),
    (b0.getLsbD 7 = false ↔ b0.toNat ≤ 0x7F) ∧
    (b0.getLsbD 7 = false → b0.toNat ≤ rest.length →
      decodeToken (b0 :: rest) = .ok (.lit (rest.take b0.toNat), rest.drop b0.toNat)) ∧
    (b0.getLsbD 7 = true → ∀ b1 rest', rest = b1 :: rest' →
      decodeToken (b0 :: rest) =
        .ok (.bref (b0.toNat % 128 * 16 + b1.toNat / 16) (b1.toNat % 16 + 1), rest'))

/-- A CTRL write is one of the three commands by its two low bits; the other bits are ignored (R59). -/
def Obligations.ControlWordDecodes : Prop :=
  ∀ w : Word,
    (w &&& 0x1#32 = 0x0#32 → decodeCtrl w = .setMode (if w.getLsbD 1 then .decode else .encode)) ∧
    (w &&& 0x3#32 = 0x1#32 → decodeCtrl w = .startEncode) ∧
    (w &&& 0x3#32 = 0x3#32 → decodeCtrl w = .startDecode)

/-- Words written out from the encodings of 30_encoding.md (section 8) and of R59 decode to what they stand for. -/
def Obligations.WrittenWordsDecode : Prop :=
  decodeToken [0b00000010, 0b01000001, 0b01000010] = .ok (.lit [0x41, 0x42], []) ∧
  decodeToken [0b10000000, 0b00011000] = .ok (.bref 1 9, []) ∧
  decodeToken [0b10010010, 0b11000100] = .ok (.bref 300 5, []) ∧
  decodeToken [0b11111111, 0b11111111] = .ok (.bref 2047 16, []) ∧
  decodeCtrl 0x00000002 = .setMode .decode ∧
  decodeCtrl 0xFFFFFFFC = .setMode .encode ∧
  decodeCtrl 0x00000001 = .startEncode ∧
  decodeCtrl 0x00000003 = .startDecode

/-! ## The step -/

/-- A step runs the decoded instruction: a token that stands at `p` in a decode, a CTRL write as the host's next action.
Around exec, a step takes the turn (and the host's action) off its list. -/
def Obligations.StepRunsDecodedInstruction : Prop :=
  (∀ (s : State) (i : Instr) (rest : List Byte), EngineMoves s → s.phase = .dec → s.p ≠ s.n →
    decodeToken s.tokenBytes = .ok (i, rest) → step s = exec i (takeTurn s)) ∧
  (∀ (s : State) (w : Word) (rest : List HostAction), HostMoves s (.regWrite 0 w) rest →
    step s = exec (decodeCtrl w) (hostTook s rest))

/-- A configuration is accepted exactly when R7 and R8 hold of it, and every step of another one is refused (R8). -/
def Obligations.BadConfigurationRefused : Prop :=
  ∀ s : State,
    (configValid s.cfg = true ↔
      s.cfg.srcCap ≤ 2 ^ 32 - 1 ∧ s.cfg.dstCap ≤ 2 ^ 32 - 1 ∧ s.cfg.srcCap + (s.cfg.srcCap + 126) / 127 ≤ s.cfg.dstCap) ∧
    (configValid s.cfg = false → step s = .refused .badConfiguration)

/-- The engine takes no step while idle (R10), and a DCB with nothing to do holds all its state (R123). -/
def Obligations.IdleEngineTakesNoStep : Prop :=
  ∀ s : State, configValid s.cfg = true → s.phase = .idle →
    (nextTurn s = some .engine → step s = .next (takeTurn s)) ∧
    (nextTurn s = none → step s = .next s)

/-! ## Tokens -/

/-- Where a LIT completes (R88): its payload is appended to DST in order, `p` advances by 1 + L, and nothing else
changes. With no payload nothing is appended and `p` advances by 1. -/
def Obligations.LitAppendsItsPayload : Prop :=
  ∀ (payload : List Byte) (s : State), configValid s.cfg = true →
    s.p.toNat + 1 + payload.length ≤ s.n.toNat → s.olen.toNat + payload.length ≤ s.cfg.dstCap →
    ∃ t, exec (.lit payload) s = .next t ∧ t.p.toNat = s.p.toNat + 1 + payload.length ∧
      AppendsExactly s t payload ∧ t = { s with p := t.p, olen := t.olen, dst := t.dst }

/-- Where a LIT raises an error, and which, in the order of R113 (R92, R96). -/
def Obligations.LitErrors : Prop :=
  ∀ (payload : List Byte) (s : State),
    (s.n.toNat < s.p.toNat + 1 + payload.length →
      exec (.lit payload) s = .next (raise .truncatedLiteral s)) ∧
    (s.p.toNat + 1 + payload.length ≤ s.n.toNat → s.cfg.dstCap < s.olen.toNat + payload.length →
      exec (.lit payload) s = .next (raise .outputOverflow s))

/-- Where a BREF completes (R89), with R91's closed form: byte `k` of the copy is byte `k mod d` of the last `d` bytes of
OUT, `p` advances by 2, and nothing else changes. It covers overlapping copies (`d < l`). -/
def Obligations.BrefCopiesPeriodically : Prop :=
  ∀ (d l : Nat) (s : State), configValid s.cfg = true →
    s.p.toNat + 1 < s.n.toNat → d ≤ s.olen.toNat → d ≠ 0 → s.olen.toNat + l ≤ s.cfg.dstCap →
    ∃ t, exec (.bref d l) s = .next t ∧ t.p.toNat = s.p.toNat + 2 ∧
      AppendsExactly s t ((List.range l).map fun k => dstByte s (s.olen.toNat - d + k % d)) ∧
      t = { s with p := t.p, olen := t.olen, dst := t.dst }

/-- Where a BREF raises an error, and which, in the order of R113 (R93, R94, R95, R96). -/
def Obligations.BrefErrors : Prop :=
  ∀ (d l : Nat) (s : State),
    (s.n.toNat ≤ s.p.toNat + 1 → exec (.bref d l) s = .next (raise .malformedStream s)) ∧
    (s.p.toNat + 1 < s.n.toNat → s.olen.toNat < d ∨ d = 0 →
      exec (.bref d l) s = .next (raise .invalidBackReference s)) ∧
    (s.p.toNat + 1 < s.n.toNat → d ≤ s.olen.toNat → d ≠ 0 → s.cfg.dstCap < s.olen.toNat + l →
      exec (.bref d l) s = .next (raise .outputOverflow s))

/-- The error completion (R114): phase IDLE, DST_LEN 0, BUSY 0, DONE 1, ERR the code of R112, no byte of DST specified,
and nothing else changes. -/
def Obligations.ErrorCompletion : Prop :=
  ∀ s : State,
    raise .truncatedLiteral s =
      { s with phase := .idle, dstLen := 0, status := { busy := false, done := true, err := 1 }, dst := [] } ∧
    raise .malformedStream s =
      { s with phase := .idle, dstLen := 0, status := { busy := false, done := true, err := 2 }, dst := [] } ∧
    raise .invalidBackReference s =
      { s with phase := .idle, dstLen := 0, status := { busy := false, done := true, err := 3 }, dst := [] } ∧
    raise .outputOverflow s =
      { s with phase := .idle, dstLen := 0, status := { busy := false, done := true, err := 4 }, dst := [] }

/-! ## The decoder's step -/

/-- DEC-STEP on a byte `b0` with bit 7 clear (R88): the L bytes of SRC after it are appended to DST, or TRUNCATED_LITERAL,
or OUTPUT_OVERFLOW. -/
def Obligations.DecodeStepOnLit : Prop :=
  ∀ (s : State) (L : Nat), EngineMoves s → s.phase = .dec → s.p.toNat < s.n.toNat →
    (srcByte s s.p.toNat).toNat = L → L < 128 →
    (s.n.toNat - (s.p.toNat + 1) < L → step s = .next (raise .truncatedLiteral (takeTurn s))) ∧
    (L ≤ s.n.toNat - (s.p.toNat + 1) → s.cfg.dstCap < s.olen.toNat + L →
      step s = .next (raise .outputOverflow (takeTurn s))) ∧
    (L ≤ s.n.toNat - (s.p.toNat + 1) → s.olen.toNat + L ≤ s.cfg.dstCap →
      ∃ t, step s = .next t ∧ t.p.toNat = s.p.toNat + 1 + L ∧
        AppendsExactly s t ((List.range L).map fun k => srcByte s (s.p.toNat + 1 + k)) ∧
        t = { takeTurn s with p := t.p, olen := t.olen, dst := t.dst })

/-- DEC-STEP on a byte `b0` with bit 7 set (R89, R91): the overlapping copy, or MALFORMED_STREAM, INVALID_BACK_REFERENCE,
or OUTPUT_OVERFLOW. -/
def Obligations.DecodeStepOnBref : Prop :=
  ∀ (s : State) (b0 b1 : Byte) (d l : Nat), EngineMoves s → s.phase = .dec → s.p.toNat < s.n.toNat →
    srcByte s s.p.toNat = b0 → 128 ≤ b0.toNat → srcByte s (s.p.toNat + 1) = b1 →
    d = b0.toNat % 128 * 16 + b1.toNat / 16 → l = b1.toNat % 16 + 1 →
    (s.n.toNat ≤ s.p.toNat + 1 → step s = .next (raise .malformedStream (takeTurn s))) ∧
    (s.p.toNat + 1 < s.n.toNat → s.olen.toNat < d ∨ d = 0 →
      step s = .next (raise .invalidBackReference (takeTurn s))) ∧
    (s.p.toNat + 1 < s.n.toNat → d ≤ s.olen.toNat → d ≠ 0 → s.cfg.dstCap < s.olen.toNat + l →
      step s = .next (raise .outputOverflow (takeTurn s))) ∧
    (s.p.toNat + 1 < s.n.toNat → d ≤ s.olen.toNat → d ≠ 0 → s.olen.toNat + l ≤ s.cfg.dstCap →
      ∃ t, step s = .next t ∧ t.p.toNat = s.p.toNat + 2 ∧
        AppendsExactly s t ((List.range l).map fun k => dstByte s (s.olen.toNat - d + k % d)) ∧
        t = { takeTurn s with p := t.p, olen := t.olen, dst := t.dst })

/-- A decode completes with success exactly when `p = n` at the start of a step, and its output is OUT, with DST_LEN its
length and no byte of DST at or past it specified (R97, R107). -/
def Obligations.DecodeSucceedsExactlyAtEnd : Prop :=
  ∀ s : State, EngineMoves s → s.phase = .dec →
    ((∃ t, step s = .next t ∧ t.phase = .idle ∧ t.status.err = 0) ↔ s.p = s.n) ∧
    (s.p = s.n → ∃ t, step s = .next t ∧ t.phase = .idle ∧ t.status = { busy := false, done := true, err := 0 } ∧
      t.dstLen = s.olen ∧ (∀ j < s.olen.toNat, t.dst.read j = s.dst.read j) ∧
      (∀ j, t.dstLen.toNat ≤ j → t.dst.read j = none) ∧
      t = { takeTurn s with phase := t.phase, status := t.status, dstLen := t.dstLen, dst := t.dst })

/-- A decode computes DECODE whatever the interleaving (R100, R131): START_DECODE leaves DECODE of the input still to be
answered; every step of the DCB, engine's or host's, leaves the same answer to be given, or ends the decode with the DCB
reporting it, or is a reset. -/
def Obligations.DecodeComputesDecodeUnderAnySchedule : Prop :=
  (∀ s : State, Inv s → s.status.busy = false →
    ∃ t, exec .startDecode s = .next t ∧
      decodeRemaining t = decodeBytes s.cfg.dstCap ((List.range s.srcLen.toNat).map (srcByte s))) ∧
  (∀ s t : State, Inv s → s.phase = .dec → step s = .next t →
    t.phase = .dec ∧ decodeRemaining t = decodeRemaining s ∨
    Reports t (decodeRemaining s) ∨ ∃ rest, HostMoves s .reset rest)

/-- A whole decode (R100, R105): from an idle DCB whose host writes START_DECODE, with no other turns prescribed, at most
n + 2 steps reach the state DECODE gives: on success ERR = 0, DST_LEN = len(out) and DST holds `out`; on an error ERR is
its code and DST_LEN = 0. That the engine then runs to completion first is the model's schedule (log 3). -/
def Obligations.DecodeOperationComputesDecode : Prop :=
  ∀ (s : State) (w : Word) (rest : List HostAction), Inv s → s.phase = .idle → s.turns = [] →
    s.host = .regWrite 0 w :: rest → w &&& 0x3#32 = 0x3#32 →
    ∃ k t, k ≤ s.srcLen.toNat + 2 ∧ Host.Core.run core k s = .next t ∧ t.host = rest ∧
      t.mode = .decode ∧ t.src = s.src ∧ t.srcLen = s.srcLen ∧
      Reports t (decodeBytes s.cfg.dstCap ((List.range s.srcLen.toNat).map (srcByte s)))

/-- DECODE never overflows a DST of 8 bytes for each stream byte (R96). -/
def Obligations.RoomyDecodeNeverOverflows : Prop :=
  ∀ (cap : Nat) (C : List Byte), 8 * C.length ≤ cap → decodeBytes cap C ≠ .error .outputOverflow

/-- Round trip (R101), under either reading of R62 (I1). -/
def Obligations.DecodeOfEncodeIsTheInput : Prop :=
  ∀ (overlap : Bool) (cap : Nat) (S : List Byte), S.length ≤ cap →
    decodeBytes cap (encodeBytes overlap S) = .ok S

/-! ## The match finder -/

/-- The match finder's result is the longest eligible match (R68). -/
def Obligations.MatchIsLongest : Prop :=
  ∀ (overlap : Bool) (S : List Byte) (i : Nat),
    (∀ d l, matchFind overlap S i = some (d, l) →
      (∃ j, occursAt overlap S i l j = true) ∧
      ∀ k, l < k → k ≤ 16 → i + k ≤ S.length → ∀ j, occursAt overlap S i k j = false) ∧
    (matchFind overlap S i = none → S.length < i + 3 ∨ ∀ j, occursAt overlap S i 3 j = false)

/-- Of the positions that match at the result's length the match finder takes the nearest (R66). -/
def Obligations.MatchIsNearest : Prop :=
  ∀ (overlap : Bool) (S : List Byte) (i d l : Nat), matchFind overlap S i = some (d, l) →
    d ≤ i ∧ occursAt overlap S i l (i - d) = true ∧ ∀ j, occursAt overlap S i l j = true → j ≤ i - d

/-- The bounds of a match (R69, R70), under R62's reading. -/
def Obligations.MatchBounds : Prop :=
  ∀ (S : List Byte) (i : Nat), i < S.length →
    (∀ d l, matchFind false S i = some (d, l) →
      3 ≤ l ∧ l ≤ 16 ∧ i + l ≤ S.length ∧ l ≤ d ∧ d ≤ min i 2047 ∧ l ≤ i) ∧
    (i < 3 → matchFind false S i = none)

/-- The match finder depends only on `S[lo .. min(n, i + 16))`, on `i` and on `n` (R71), under R62's reading and under
the other (I1). -/
def Obligations.MatchDependsOnlyOnWindow : Prop :=
  ∀ (overlap : Bool) (S T : List Byte) (i : Nat), S.length = T.length →
    (∀ k, windowLow i ≤ k → k < min S.length (i + 16) → S[k]? = T[k]?) →
    matchFind overlap S i = matchFind overlap T i

/-! ## The encoder's step -/

/-- ENC-STEP where the match finder answers (R74): the pending run, if any, is flushed, the BREF follows it, `i` advances
by the length and stays within `n`. -/
def Obligations.EncodeStepOnMatch : Prop :=
  ∀ (s : State) (d l : Nat), Inv s → EngineMoves s → s.phase = .enc → s.i.toNat < s.n.toNat →
    matchFind s.cfg.encOverlapSource s.input s.i.toNat = some (d, l) →
    ∃ t, step s = .next t ∧ t.i.toNat = s.i.toNat + l ∧ t.i.toNat ≤ s.n.toNat ∧ t.lb.seq = [] ∧
      AppendsExactly s t ((if s.lb.seq = [] then [] else serLit s.lb.seq) ++ serBref d l) ∧
      t = { takeTurn s with i := t.i, lb := t.lb, olen := t.olen, dst := t.dst }

/-- ENC-STEP where the match finder answers none (R75): the byte joins the pending run, and a run of 127 bytes is flushed
within the step. -/
def Obligations.EncodeStepOnLiteral : Prop :=
  ∀ (s : State), Inv s → EngineMoves s → s.phase = .enc → s.i.toNat < s.n.toNat →
    matchFind s.cfg.encOverlapSource s.input s.i.toNat = none →
    ∃ t, step s = .next t ∧ t.i.toNat = s.i.toNat + 1 ∧
      (s.lb.seq.length + 1 < 127 → t.lb.seq = s.lb.seq ++ [srcByte s s.i.toNat] ∧ AppendsExactly s t []) ∧
      (s.lb.seq.length + 1 = 127 → t.lb.seq = [] ∧
        AppendsExactly s t (serLit (s.lb.seq ++ [srcByte s s.i.toNat]))) ∧
      t = { takeTurn s with i := t.i, lb := t.lb, olen := t.olen, dst := t.dst }

/-- ENC-STEP at the end of the input (R78): the pending run, if any, is flushed, LB is empty, and the encode completes
(R107) with ERR = 0, DST_LEN = olen the length of the output, and no byte of DST at or past it specified. -/
def Obligations.EncodeStepAtEnd : Prop :=
  ∀ (s : State) (bs : List Byte), Inv s → EngineMoves s → s.phase = .enc → s.i = s.n →
    bs = (if s.lb.seq = [] then [] else serLit s.lb.seq) →
    ∃ t, step s = .next t ∧ t.phase = .idle ∧ t.status = { busy := false, done := true, err := 0 } ∧
      t.lb.seq = [] ∧ t.dstLen.toNat = s.olen.toNat + bs.length ∧ t.olen = t.dstLen ∧
      (∀ j < s.olen.toNat, t.dst.read j = s.dst.read j) ∧
      (∀ (k : Nat) (h : k < bs.length), t.dst.read (s.olen.toNat + k) = some bs[k]) ∧
      (∀ j, t.dstLen.toNat ≤ j → t.dst.read j = none) ∧
      t = { takeTurn s with
            phase := t.phase, status := t.status, dstLen := t.dstLen, dst := t.dst, olen := t.olen, lb := t.lb }

/-- No step of an encode raises an error, or stops (R80). -/
def Obligations.EncodeNeverFails : Prop :=
  ∀ s : State, Inv s → EngineMoves s → s.phase = .enc →
    ∃ t, step s = .next t ∧ t.status.err = 0 ∧ (t.phase = .enc ∨ t.phase = .idle ∧ s.i = s.n)

/-- An encode computes ENCODE whatever the interleaving (R79, R131): START_ENCODE leaves ENCODE of the input still to be
answered; every step of the DCB, engine's or host's, leaves the same answer to be given, or ends the encode with the DCB
reporting it as a success, or is a reset. -/
def Obligations.EncodeComputesEncodeUnderAnySchedule : Prop :=
  (∀ s : State, Inv s → s.status.busy = false →
    ∃ t, exec .startEncode s = .next t ∧
      encodeRemaining t = encodeBytes s.cfg.encOverlapSource ((List.range s.srcLen.toNat).map (srcByte s))) ∧
  (∀ s t : State, Inv s → s.phase = .enc → step s = .next t →
    t.phase = .enc ∧ encodeRemaining t = encodeRemaining s ∨
    Reports t (.ok (encodeRemaining s)) ∨ ∃ rest, HostMoves s .reset rest)

/-- A whole encode (R79, R80, R104): from an idle DCB whose host writes START_ENCODE, with no other turns prescribed, at
most n + 2 steps reach ERR = 0 with DST_LEN = len(ENCODE(S)) and DST holding ENCODE(S). That the engine then runs to
completion first is the model's schedule (log 3). -/
def Obligations.EncodeOperationComputesEncode : Prop :=
  ∀ (s : State) (w : Word) (rest : List HostAction), Inv s → s.phase = .idle → s.turns = [] →
    s.host = .regWrite 0 w :: rest → w &&& 0x3#32 = 0x1#32 →
    ∃ k t, k ≤ s.srcLen.toNat + 2 ∧ Host.Core.run core k s = .next t ∧ t.host = rest ∧
      t.mode = .encode ∧ t.src = s.src ∧ t.srcLen = s.srcLen ∧
      Reports t (.ok (encodeBytes s.cfg.encOverlapSource ((List.range s.srcLen.toNat).map (srcByte s))))

/-- The expansion bound, for every input (R84), under either reading of R62 (I1). -/
def Obligations.EncodeExpansionBound : Prop :=
  ∀ (overlap : Bool) (S : List Byte), (encodeBytes overlap S).length ≤ S.length + (S.length + 126) / 127

/-- Every token of ENCODE(S) is within the field bounds (R82). -/
def Obligations.EncodeEmitsFieldBounds : Prop :=
  ∀ S : List Byte, ∃ ts, Serializes ts (encodeBytes false S) ∧ ∀ i ∈ ts, Emittable i

/-- ENCODE(S) is a sequence of tokens within the field bounds (so it is the one token sequence of ENCODE(S)) in which a
LIT of fewer than 127 bytes is followed by a BREF or is the last token, and the first token of a non-empty output is a LIT
that begins with the first min(3, n) bytes of S (R83). -/
def Obligations.EncodeTokenOrder : Prop :=
  ∀ S : List Byte, ∃ ts, Serializes ts (encodeBytes false S) ∧ (∀ i ∈ ts, Emittable i) ∧
    ts.IsChain (fun a b => ShortLit a → IsBref b) ∧
    (S ≠ [] → ∃ payload ts', ts = .lit payload :: ts' ∧ S.take 3 <+: payload)

/-! ## Commands -/

/-- SET_MODE while idle writes MODE and nothing else; while BUSY it is ignored (R103, R106). -/
def Obligations.SetModeWritesMode : Prop :=
  ∀ (m : Mode) (s : State),
    (s.status.busy = false → exec (.setMode m) s = .next { s with mode := m }) ∧
    (s.status.busy = true → exec (.setMode m) s = .next s)

/-- START_ENCODE while idle, with the encoder's starting state; while BUSY it is ignored (R104, R72, R106). -/
def Obligations.StartEncodeBeginsAnEncode : Prop :=
  ∀ s : State,
    (s.status.busy = false →
      ∃ t, exec .startEncode s = .next t ∧ t.mode = .encode ∧ t.n = s.srcLen ∧
        t.status = { busy := true, done := false, err := 0 } ∧ t.phase = .enc ∧ t.i = 0 ∧ t.lb.seq = [] ∧ t.olen = 0 ∧
        t = { s with mode := t.mode, n := t.n, status := t.status, phase := t.phase, i := t.i, lb := t.lb,
                     olen := t.olen }) ∧
    (s.status.busy = true → exec .startEncode s = .next s)

/-- START_DECODE while idle, with the decoder's starting state; while BUSY it is ignored (R105, R86, R106). -/
def Obligations.StartDecodeBeginsADecode : Prop :=
  ∀ s : State,
    (s.status.busy = false →
      exec .startDecode s =
        .next { s with mode := .decode, n := s.srcLen, status := { busy := true, done := false, err := 0 },
                       phase := .dec, p := 0, olen := 0 }) ∧
    (s.status.busy = true → exec .startDecode s = .next s)

/-- While BUSY, a host write to any register, to SRC or to DST changes nothing (R106, R127). -/
def Obligations.WritesWhileBusyIgnored : Prop :=
  ∀ (s : State) (a : HostAction) (rest : List HostAction), HostMoves s a rest → s.status.busy = true →
    ((∃ r w, a = .regWrite r w) ∨ (∃ k b, a = .srcWrite k b ∧ k < s.cfg.srcCap) ∨
      (∃ k b, a = .dstWrite k b ∧ k < s.cfg.dstCap)) →
    step s = .next (hostTook s rest)

/-! ## Registers and buffers -/

/-- What a register read returns (R108): it changes no state of the DCB, and while an operation runs STATUS reads
BUSY = 1, DONE = 0, ERR = 0. While BUSY, DST_LEN is any value (R24). -/
def Obligations.RegisterReadValues : Prop :=
  ∀ (s : State) (r : Nat) (rest : List HostAction), HostMoves s (.regRead r) rest →
    ∃ t w, step s = .next t ∧ t.reply = some (.register w) ∧
      (r = 0 → w.toNat = if s.mode = .decode then 2 else 0) ∧
      (r = 1 → w.toNat = s.status.err.toNat * 4 + s.status.done.toNat * 2 + s.status.busy.toNat) ∧
      (r = 1 → Inv s → s.phase ≠ .idle → w = 1) ∧
      (r = 2 → w = s.srcLen) ∧
      (r = 3 → s.status.busy = false → w = s.dstLen) ∧
      (4 ≤ r → w = 0) ∧
      t = { hostTook s rest with reply := t.reply, draws := t.draws }

/-- What a write to a register other than CTRL does while idle (R109, R23): SRC_LEN takes a value within SRC_CAP, and
every other such write is ignored. -/
def Obligations.RegisterWriteEffects : Prop :=
  ∀ (s : State) (r : Nat) (w : Word) (rest : List HostAction), HostMoves s (.regWrite r w) rest → r ≠ 0 →
    s.status.busy = false →
    (r = 2 → w.toNat ≤ s.cfg.srcCap → step s = .next { hostTook s rest with srcLen := w }) ∧
    (r ≠ 2 ∨ s.cfg.srcCap < w.toNat → step s = .next (hostTook s rest))

/-- A read changes no state of the DCB (R37): only the model's record of the answer changes. -/
def Obligations.ReadsHaveNoSideEffect : Prop :=
  ∀ (s t : State) (a : HostAction) (rest : List HostAction), HostMoves s a rest →
    ((∃ r, a = .regRead r) ∨ (∃ k, a = .srcRead k) ∨ (∃ k, a = .dstRead k)) → step s = .next t →
    t = { hostTook s rest with reply := t.reply, draws := t.draws }

/-- SRC through the host (R110): an idle write is read back, at its own index alone, and reads return SRC[k] in every
phase. -/
def Obligations.SrcAccesses : Prop :=
  ∀ (s : State) (k : Nat) (b : Byte) (rest : List HostAction), k < s.cfg.srcCap →
    (HostMoves s (.srcWrite k b) rest → s.status.busy = false →
      ∃ t, step s = .next t ∧ srcByte t k = b ∧ (∀ j, j ≠ k → srcByte t j = srcByte s j) ∧
        t = { hostTook s rest with src := t.src }) ∧
    (HostMoves s (.srcRead k) rest → ∃ t, step s = .next t ∧ t.reply = some (.byte (srcByte s k)))

/-- DST through the host (R111): while idle a write sets its byte alone and leaves DST_LEN, and a read of a specified
byte returns it; while BUSY a read still answers (any value). THE MODEL'S CHOICE (log 11, DEDUCED, unsafe): after a
success, a host write below DST_LEN sets its byte as anywhere else, so that the later read returns what the host wrote;
R111 says both that a write sets `DST[k]` and that a read below DST_LEN returns the output byte. -/
def Obligations.DstAccesses : Prop :=
  ∀ (s : State) (k : Nat) (b : Byte) (rest : List HostAction), k < s.cfg.dstCap →
    (HostMoves s (.dstWrite k b) rest → s.status.busy = false →
      ∃ t, step s = .next t ∧ t.dst.read k = some b ∧ (∀ j, j ≠ k → t.dst.read j = s.dst.read j) ∧
        t = { hostTook s rest with dst := t.dst }) ∧
    (HostMoves s (.dstRead k) rest → s.status.busy = false → s.dst.read k = some b →
      ∃ t, step s = .next t ∧ t.reply = some (.byte b)) ∧
    (HostMoves s (.dstRead k) rest → ∃ t v, step s = .next t ∧ t.reply = some (.byte v))

/-- A host access at or beyond a buffer's capacity is refused (R31). -/
def Obligations.OutsideAccessesRefused : Prop :=
  ∀ (s : State) (k : Nat) (b : Byte) (rest : List HostAction),
    (s.cfg.srcCap ≤ k → HostMoves s (.srcRead k) rest ∨ HostMoves s (.srcWrite k b) rest →
      step s = .refused .srcIndexOutside) ∧
    (s.cfg.dstCap ≤ k → HostMoves s (.dstRead k) rest ∨ HostMoves s (.dstWrite k b) rest →
      step s = .refused .dstIndexOutside)

/-- The engine's hidden state cannot be observed (R26): states that look alike to the host look alike after every host
action, its answer included. -/
def Obligations.HiddenStateUnobservable : Prop :=
  ∀ (s u s' : State) (a : HostAction), visible s = visible u → hostAccess a s = .next s' →
    ∃ u', hostAccess a u = .next u' ∧ visible s' = visible u'

/-! ## Reset -/

/-- Reset, from any state and also during an operation (R124, R125): every register takes its reset value, no byte of SRC
or DST is specified, and a running operation is abandoned. -/
def Obligations.ResetFromAnyState : Prop :=
  ∀ (s : State) (rest : List HostAction), HostMoves s .reset rest →
    ∃ t, step s = .next t ∧ t.phase = .idle ∧ t.n = 0 ∧ t.i = 0 ∧ t.p = 0 ∧ t.olen = 0 ∧ t.lb.seq = [] ∧
      t.mode = .encode ∧ t.status = { busy := false, done := false, err := 0 } ∧ t.srcLen = 0 ∧ t.dstLen = 0 ∧
      t.src = [] ∧ t.dst = [] ∧ t.cfg = s.cfg ∧ t.host = rest

/-- After reset every register reads 0 (R124, R19). -/
def Obligations.ResetRegistersReadZero : Prop :=
  ∀ r : Nat, readRegister State.reset r = 0

/-- The invariant holds after reset, in every accepted configuration (R124). -/
def Obligations.InvariantAtReset : Prop :=
  Inv State.reset ∧ ∀ c : Config, configValid c = true → Inv (State.resetOf c)

/-! ## The whole machine -/

/-- Every step keeps the invariant. -/
def Obligations.StepKeepsInvariant : Prop :=
  ∀ s t : State, Inv s → step s = .next t → Inv t

/-- From a state that satisfies the invariant, no step faults, and a step is refused only where the host reaches outside
SRC or DST (R31). -/
def Obligations.NoStopButOutsideAccess : Prop :=
  ∀ s : State, Inv s →
    (∀ f, step s ≠ .fault f) ∧
    (∀ r, step s = .refused r → ∃ a rest k b, HostMoves s a rest ∧
      ((a = .srcRead k ∨ a = .srcWrite k b) ∧ s.cfg.srcCap ≤ k ∨ (a = .dstRead k ∨ a = .dstWrite k b) ∧ s.cfg.dstCap ≤ k))

/-- No step changes the configuration (R5, R7). -/
def Obligations.ConfigurationNeverChanges : Prop :=
  ∀ s t : State, step s = .next t → t.cfg = s.cfg

/-- The operation's input does not change while it runs (R12, R46). -/
def Obligations.InputFixedDuringOperation : Prop :=
  ∀ s t : State, Inv s → s.phase ≠ .idle → step s = .next t → t.phase ≠ .idle →
    t.phase = s.phase ∧ t.n = s.n ∧ t.src = s.src ∧ t.input = s.input

/-- The output of a running operation only grows, and no byte of it is rewritten (R16, R90). -/
def Obligations.OutputOnlyGrows : Prop :=
  ∀ s t : State, Inv s → s.phase ≠ .idle → step s = .next t → t.phase ≠ .idle →
    s.olen.toNat ≤ t.olen.toNat ∧ ∀ j < s.olen.toNat, t.dst.read j = s.dst.read j

/-- Every engine step that neither completes nor raises consumes input, within `n` (R85, R99). -/
def Obligations.EngineStepAdvances : Prop :=
  ∀ s t : State, Inv s → EngineMoves s → step s = .next t →
    (s.phase = .enc → t.phase ≠ .idle → s.i.toNat < t.i.toNat ∧ t.i.toNat ≤ s.n.toNat) ∧
    (s.phase = .dec → t.phase ≠ .idle → s.p.toNat < t.p.toNat ∧ t.p.toNat ≤ s.n.toNat)

/-- An operation begins only by a START command (R10, R104, R105), in the phase the command names. -/
def Obligations.OnlyStartBeginsAnOperation : Prop :=
  ∀ s t : State, s.phase = .idle → step s = .next t → t.phase ≠ .idle →
    ∃ w rest, HostMoves s (.regWrite 0 w) rest ∧
      (t.phase = .enc ∧ w &&& 0x3#32 = 0x1#32 ∨ t.phase = .dec ∧ w &&& 0x3#32 = 0x3#32)

/-- While idle, STATUS keeps DONE and the error code until the next START command or reset (R115). -/
def Obligations.ResultKeptUntilStartOrReset : Prop :=
  ∀ s t : State, s.phase = .idle → step s = .next t → t.status ≠ s.status →
    (∃ w rest, HostMoves s (.regWrite 0 w) rest ∧ w &&& 0x1#32 = 0x1#32) ∨ ∃ rest, HostMoves s .reset rest
end

