-- ==== Sys2Proof/Laws/Memory.lean ====
section
/-! SUPPORT. The laws of the byte buffers: what a read finds after each operation, and that each keeps the canonical
form. -/

namespace Sys2Proof.Machine

theorem Memory.read_of_below {m : Memory} {k : Nat} (h : ∀ c ∈ m, k < c.1) : m.read k = none := by
  induction m with
  | nil => rfl
  | cons c m ih =>
    have hc := h c (by simp)
    simp only [Memory.read]
    rw [if_neg (by omega)]
    exact ih fun d hd => h d (by simp [hd])

/-- A read finds exactly the listed bytes. -/
theorem Memory.read_eq_some_iff {m : Memory} (hm : m.wf) {k : Nat} {b : Byte} :
    m.read k = some b ↔ (k, b) ∈ m := by
  induction m with
  | nil => simp [Memory.read]
  | cons c m ih =>
    obtain ⟨h1, h2⟩ := List.pairwise_cons.1 hm
    simp only [Memory.read, List.mem_cons]
    by_cases hc : c.1 = k
    · simp only [hc, if_true]
      constructor
      · intro h
        left
        simp only [Option.some.injEq] at h
        exact Prod.ext hc.symm h.symm
      · rintro (h | h)
        · simp [← h]
        · have := h1 _ h
          simp only at this
          omega
    · rw [if_neg hc, ih h2]
      constructor
      · exact Or.inr
      · rintro (h | h)
        · exact absurd (by rw [← h]) hc
        · exact h

theorem Memory.mem_write {m : Memory} {k : Nat} {b : Byte} {c : Host.Cell} (h : c ∈ m.write k b) :
    c = (k, b) ∨ c ∈ m := by
  induction m with
  | nil => simpa [Memory.write] using h
  | cons d m ih =>
    simp only [Memory.write] at h
    split at h
    · simpa using h
    · split at h
      · simp only [List.mem_cons] at h ⊢
        tauto
      · simp only [List.mem_cons] at h ⊢
        rcases h with h | h
        · tauto
        · rcases ih h with h | h <;> tauto

/-- A write keeps the canonical form. -/
theorem Memory.write_wf {m : Memory} (hm : m.wf) (k : Nat) (b : Byte) : (m.write k b).wf := by
  induction m with
  | nil => simp [Memory.write, Memory.wf]
  | cons c m ih =>
    obtain ⟨h1, h2⟩ := List.pairwise_cons.1 hm
    simp only [Memory.write]
    split
    · rename_i hk
      refine List.pairwise_cons.2 ⟨fun d hd => ?_, hm⟩
      rcases List.mem_cons.1 hd with rfl | hd
      · exact hk
      · exact Nat.lt_trans hk (h1 d hd)
    · split
      · rename_i hk
        exact List.pairwise_cons.2 ⟨fun d hd => by simpa [hk] using h1 d hd, h2⟩
      · rename_i hk hk'
        refine List.pairwise_cons.2 ⟨fun d hd => ?_, ih h2⟩
        rcases Memory.mem_write hd with rfl | hd
        · simp only
          omega
        · exact h1 d hd

@[simp] theorem Memory.read_write_same (m : Memory) (k : Nat) (b : Byte) : (m.write k b).read k = some b := by
  induction m with
  | nil => simp [Memory.write, Memory.read]
  | cons c m ih =>
    simp only [Memory.write]
    split
    · simp [Memory.read]
    · split
      · simp [Memory.read]
      · simp only [Memory.read]
        rw [if_neg (by omega)]
        exact ih

theorem Memory.read_write_other (m : Memory) {k j : Nat} (b : Byte) (h : j ≠ k) :
    (m.write k b).read j = m.read j := by
  induction m with
  | nil => simp [Memory.write, Memory.read, Ne.symm h]
  | cons c m ih =>
    simp only [Memory.write]
    split
    · simp [Memory.read, Ne.symm h]
    · split
      · rename_i hk
        simp only [Memory.read, if_neg (Ne.symm h)]
        rw [if_neg (by omega)]
      · simp only [Memory.read, ih]

/-- A read after a write. -/
theorem Memory.read_write (m : Memory) (k j : Nat) (b : Byte) :
    (m.write k b).read j = if j = k then some b else m.read j := by
  split
  · rename_i h
    rw [h, Memory.read_write_same]
  · rename_i h
    exact Memory.read_write_other m b h

/-- Forgetting bytes keeps the canonical form. -/
theorem Memory.below_wf {m : Memory} (hm : m.wf) (bound : Nat) : (m.below bound).wf := hm.filter _

theorem Memory.mem_below {m : Memory} {bound : Nat} {c : Host.Cell} : c ∈ m.below bound ↔ c ∈ m ∧ c.1 < bound := by
  simp [Memory.below]

/-- What is forgotten, and what stays. -/
theorem Memory.read_below (m : Memory) (bound k : Nat) :
    (m.below bound).read k = if k < bound then m.read k else none := by
  induction m with
  | nil => simp [Memory.below, Memory.read]
  | cons c m ih =>
    simp only [Memory.below, List.filter_cons] at ih ⊢
    by_cases hc : c.1 < bound
    · simp only [hc, decide_true, if_true, Memory.read, ih]
      by_cases hk : c.1 = k
      · simp [← hk, hc]
      · simp [hk]
    · simp only [hc, decide_false, Bool.false_eq_true, if_false, ih, Memory.read]
      by_cases hk : c.1 = k
      · simp [← hk, hc]
      · simp [hk]

/-- A write of many bytes keeps the canonical form. -/
theorem Memory.writeAll_wf {m : Memory} (hm : m.wf) (k : Nat) (bs : List Byte) : (m.writeAll k bs).wf := by
  induction bs generalizing m k with
  | nil => exact hm
  | cons b bs ih => exact ih (Memory.write_wf hm k b) (k + 1)

/-- A read after a write of many bytes. -/
theorem Memory.read_writeAll (m : Memory) (k j : Nat) (bs : List Byte) :
    (m.writeAll k bs).read j = if h : k ≤ j ∧ j < k + bs.length then some (bs[j - k]'(by omega)) else m.read j := by
  induction bs generalizing m k with
  | nil =>
    rw [dif_neg (by simp only [List.length_nil]; omega)]
    rfl
  | cons b bs ih =>
    rw [Memory.writeAll, ih]
    by_cases hj : j = k
    · subst hj
      rw [dif_neg (by omega), dif_pos (by simp)]
      simp
    · by_cases h : k ≤ j ∧ j < k + (b :: bs).length
      · have h' : k + 1 ≤ j ∧ j < k + 1 + bs.length := by simp only [List.length_cons] at h; omega
        rw [dif_pos h', dif_pos h]
        congr 1
        obtain ⟨e, he⟩ : ∃ e, j - k = e + 1 := ⟨j - k - 1, by omega⟩
        simp only [he, List.getElem_cons_succ]
        congr 1
        omega
      · rw [dif_neg (by simp only [List.length_cons] at h; omega), dif_neg h,
          Memory.read_write_other _ _ hj]

/-- The buffers of the reset state are in canonical form. -/
theorem reset_buffers_wf : State.reset.src.wf ∧ State.reset.dst.wf := by
  exact ⟨List.Pairwise.nil, List.Pairwise.nil⟩

end Sys2Proof.Machine
end

