-- ==== Sys2Proof/Laws/State.lean ====
section
/-! SUPPORT. One lemma per field per update of State, each true by rfl. -/

namespace Sys2Proof.Machine

/-! ## APPEND (R90) -/

@[simp] theorem append_cfg (s : State) (b : Byte) : (s.append b).cfg = s.cfg := rfl
@[simp] theorem append_phase (s : State) (b : Byte) : (s.append b).phase = s.phase := rfl
@[simp] theorem append_n (s : State) (b : Byte) : (s.append b).n = s.n := rfl
@[simp] theorem append_i (s : State) (b : Byte) : (s.append b).i = s.i := rfl
@[simp] theorem append_lb (s : State) (b : Byte) : (s.append b).lb = s.lb := rfl
@[simp] theorem append_p (s : State) (b : Byte) : (s.append b).p = s.p := rfl
@[simp] theorem append_olen (s : State) (b : Byte) : (s.append b).olen = s.olen + 1 := rfl
@[simp] theorem append_mode (s : State) (b : Byte) : (s.append b).mode = s.mode := rfl
@[simp] theorem append_status (s : State) (b : Byte) : (s.append b).status = s.status := rfl
@[simp] theorem append_srcLen (s : State) (b : Byte) : (s.append b).srcLen = s.srcLen := rfl
@[simp] theorem append_dstLen (s : State) (b : Byte) : (s.append b).dstLen = s.dstLen := rfl
@[simp] theorem append_src (s : State) (b : Byte) : (s.append b).src = s.src := rfl
@[simp] theorem append_dst (s : State) (b : Byte) : (s.append b).dst = s.dst.write s.olen.toNat b := rfl
@[simp] theorem append_host (s : State) (b : Byte) : (s.append b).host = s.host := rfl
@[simp] theorem append_turns (s : State) (b : Byte) : (s.append b).turns = s.turns := rfl
@[simp] theorem append_reply (s : State) (b : Byte) : (s.append b).reply = s.reply := rfl
@[simp] theorem append_resets (s : State) (b : Byte) : (s.append b).resets = s.resets := rfl
@[simp] theorem append_draws (s : State) (b : Byte) : (s.append b).draws = s.draws := rfl

/-! ## `p <- p + k` -/

@[simp] theorem advanceP_cfg (s : State) (k : Nat) : (s.advanceP k).cfg = s.cfg := rfl
@[simp] theorem advanceP_phase (s : State) (k : Nat) : (s.advanceP k).phase = s.phase := rfl
@[simp] theorem advanceP_n (s : State) (k : Nat) : (s.advanceP k).n = s.n := rfl
@[simp] theorem advanceP_i (s : State) (k : Nat) : (s.advanceP k).i = s.i := rfl
@[simp] theorem advanceP_lb (s : State) (k : Nat) : (s.advanceP k).lb = s.lb := rfl
@[simp] theorem advanceP_p (s : State) (k : Nat) : (s.advanceP k).p = s.p + BitVec.ofNat 32 k := rfl
@[simp] theorem advanceP_olen (s : State) (k : Nat) : (s.advanceP k).olen = s.olen := rfl
@[simp] theorem advanceP_mode (s : State) (k : Nat) : (s.advanceP k).mode = s.mode := rfl
@[simp] theorem advanceP_status (s : State) (k : Nat) : (s.advanceP k).status = s.status := rfl
@[simp] theorem advanceP_srcLen (s : State) (k : Nat) : (s.advanceP k).srcLen = s.srcLen := rfl
@[simp] theorem advanceP_dstLen (s : State) (k : Nat) : (s.advanceP k).dstLen = s.dstLen := rfl
@[simp] theorem advanceP_src (s : State) (k : Nat) : (s.advanceP k).src = s.src := rfl
@[simp] theorem advanceP_dst (s : State) (k : Nat) : (s.advanceP k).dst = s.dst := rfl
@[simp] theorem advanceP_host (s : State) (k : Nat) : (s.advanceP k).host = s.host := rfl
@[simp] theorem advanceP_turns (s : State) (k : Nat) : (s.advanceP k).turns = s.turns := rfl
@[simp] theorem advanceP_reply (s : State) (k : Nat) : (s.advanceP k).reply = s.reply := rfl
@[simp] theorem advanceP_resets (s : State) (k : Nat) : (s.advanceP k).resets = s.resets := rfl
@[simp] theorem advanceP_draws (s : State) (k : Nat) : (s.advanceP k).draws = s.draws := rfl

/-! ## `i <- i + k` -/

@[simp] theorem advanceI_cfg (s : State) (k : Nat) : (s.advanceI k).cfg = s.cfg := rfl
@[simp] theorem advanceI_phase (s : State) (k : Nat) : (s.advanceI k).phase = s.phase := rfl
@[simp] theorem advanceI_n (s : State) (k : Nat) : (s.advanceI k).n = s.n := rfl
@[simp] theorem advanceI_i (s : State) (k : Nat) : (s.advanceI k).i = s.i + BitVec.ofNat 32 k := rfl
@[simp] theorem advanceI_lb (s : State) (k : Nat) : (s.advanceI k).lb = s.lb := rfl
@[simp] theorem advanceI_p (s : State) (k : Nat) : (s.advanceI k).p = s.p := rfl
@[simp] theorem advanceI_olen (s : State) (k : Nat) : (s.advanceI k).olen = s.olen := rfl
@[simp] theorem advanceI_mode (s : State) (k : Nat) : (s.advanceI k).mode = s.mode := rfl
@[simp] theorem advanceI_status (s : State) (k : Nat) : (s.advanceI k).status = s.status := rfl
@[simp] theorem advanceI_srcLen (s : State) (k : Nat) : (s.advanceI k).srcLen = s.srcLen := rfl
@[simp] theorem advanceI_dstLen (s : State) (k : Nat) : (s.advanceI k).dstLen = s.dstLen := rfl
@[simp] theorem advanceI_src (s : State) (k : Nat) : (s.advanceI k).src = s.src := rfl
@[simp] theorem advanceI_dst (s : State) (k : Nat) : (s.advanceI k).dst = s.dst := rfl
@[simp] theorem advanceI_host (s : State) (k : Nat) : (s.advanceI k).host = s.host := rfl
@[simp] theorem advanceI_turns (s : State) (k : Nat) : (s.advanceI k).turns = s.turns := rfl
@[simp] theorem advanceI_reply (s : State) (k : Nat) : (s.advanceI k).reply = s.reply := rfl
@[simp] theorem advanceI_resets (s : State) (k : Nat) : (s.advanceI k).resets = s.resets := rfl
@[simp] theorem advanceI_draws (s : State) (k : Nat) : (s.advanceI k).draws = s.draws := rfl

/-! ## `complete` (R107) -/

@[simp] theorem complete_cfg (s : State) : (complete s).cfg = s.cfg := rfl
@[simp] theorem complete_phase (s : State) : (complete s).phase = .idle := rfl
@[simp] theorem complete_n (s : State) : (complete s).n = s.n := rfl
@[simp] theorem complete_i (s : State) : (complete s).i = s.i := rfl
@[simp] theorem complete_lb (s : State) : (complete s).lb = s.lb := rfl
@[simp] theorem complete_p (s : State) : (complete s).p = s.p := rfl
@[simp] theorem complete_olen (s : State) : (complete s).olen = s.olen := rfl
@[simp] theorem complete_mode (s : State) : (complete s).mode = s.mode := rfl
@[simp] theorem complete_status (s : State) : (complete s).status = statusDone := rfl
@[simp] theorem complete_srcLen (s : State) : (complete s).srcLen = s.srcLen := rfl
@[simp] theorem complete_dstLen (s : State) : (complete s).dstLen = s.olen := rfl
@[simp] theorem complete_src (s : State) : (complete s).src = s.src := rfl
@[simp] theorem complete_dst (s : State) : (complete s).dst = s.dst.below s.olen.toNat := rfl
@[simp] theorem complete_host (s : State) : (complete s).host = s.host := rfl
@[simp] theorem complete_turns (s : State) : (complete s).turns = s.turns := rfl
@[simp] theorem complete_reply (s : State) : (complete s).reply = s.reply := rfl
@[simp] theorem complete_resets (s : State) : (complete s).resets = s.resets := rfl
@[simp] theorem complete_draws (s : State) : (complete s).draws = s.draws := rfl

/-! ## `raise E` (R114) -/

@[simp] theorem raise_cfg (e : ErrorKind) (s : State) : (raise e s).cfg = s.cfg := rfl
@[simp] theorem raise_phase (e : ErrorKind) (s : State) : (raise e s).phase = .idle := rfl
@[simp] theorem raise_n (e : ErrorKind) (s : State) : (raise e s).n = s.n := rfl
@[simp] theorem raise_i (e : ErrorKind) (s : State) : (raise e s).i = s.i := rfl
@[simp] theorem raise_lb (e : ErrorKind) (s : State) : (raise e s).lb = s.lb := rfl
@[simp] theorem raise_p (e : ErrorKind) (s : State) : (raise e s).p = s.p := rfl
@[simp] theorem raise_olen (e : ErrorKind) (s : State) : (raise e s).olen = s.olen := rfl
@[simp] theorem raise_mode (e : ErrorKind) (s : State) : (raise e s).mode = s.mode := rfl
@[simp] theorem raise_status (e : ErrorKind) (s : State) : (raise e s).status = statusFailed e := rfl
@[simp] theorem raise_srcLen (e : ErrorKind) (s : State) : (raise e s).srcLen = s.srcLen := rfl
@[simp] theorem raise_dstLen (e : ErrorKind) (s : State) : (raise e s).dstLen = 0 := rfl
@[simp] theorem raise_src (e : ErrorKind) (s : State) : (raise e s).src = s.src := rfl
@[simp] theorem raise_dst (e : ErrorKind) (s : State) : (raise e s).dst = [] := rfl
@[simp] theorem raise_host (e : ErrorKind) (s : State) : (raise e s).host = s.host := rfl
@[simp] theorem raise_turns (e : ErrorKind) (s : State) : (raise e s).turns = s.turns := rfl
@[simp] theorem raise_reply (e : ErrorKind) (s : State) : (raise e s).reply = s.reply := rfl
@[simp] theorem raise_resets (e : ErrorKind) (s : State) : (raise e s).resets = s.resets := rfl
@[simp] theorem raise_draws (e : ErrorKind) (s : State) : (raise e s).draws = s.draws := rfl

/-! ## reset (R124) -/

@[simp] theorem resetDcb_cfg (s : State) : (resetDcb s).cfg = s.cfg := rfl
@[simp] theorem resetDcb_phase (s : State) : (resetDcb s).phase = .idle := rfl
@[simp] theorem resetDcb_n (s : State) : (resetDcb s).n = 0 := rfl
@[simp] theorem resetDcb_i (s : State) : (resetDcb s).i = 0 := rfl
@[simp] theorem resetDcb_lb (s : State) : (resetDcb s).lb = State.reset.lb := rfl
@[simp] theorem resetDcb_p (s : State) : (resetDcb s).p = 0 := rfl
@[simp] theorem resetDcb_olen (s : State) : (resetDcb s).olen = 0 := rfl
@[simp] theorem resetDcb_mode (s : State) : (resetDcb s).mode = .encode := rfl
@[simp] theorem resetDcb_status (s : State) : (resetDcb s).status = State.reset.status := rfl
@[simp] theorem resetDcb_srcLen (s : State) : (resetDcb s).srcLen = 0 := rfl
@[simp] theorem resetDcb_dstLen (s : State) : (resetDcb s).dstLen = 0 := rfl
@[simp] theorem resetDcb_src (s : State) : (resetDcb s).src = [] := rfl
@[simp] theorem resetDcb_dst (s : State) : (resetDcb s).dst = [] := rfl
@[simp] theorem resetDcb_host (s : State) : (resetDcb s).host = s.host := rfl
@[simp] theorem resetDcb_turns (s : State) : (resetDcb s).turns = s.turns := rfl
@[simp] theorem resetDcb_reply (s : State) : (resetDcb s).reply = s.reply := rfl
@[simp] theorem resetDcb_resets (s : State) : (resetDcb s).resets = s.resets + 1 := rfl
@[simp] theorem resetDcb_draws (s : State) : (resetDcb s).draws = s.draws := rfl

/-! ## the common part of the START commands (R104, R105) -/

@[simp] theorem startOperation_cfg (m : Mode) (ph : Phase) (s : State) : (startOperation m ph s).cfg = s.cfg := rfl
@[simp] theorem startOperation_phase (m : Mode) (ph : Phase) (s : State) : (startOperation m ph s).phase = ph := rfl
@[simp] theorem startOperation_n (m : Mode) (ph : Phase) (s : State) : (startOperation m ph s).n = s.srcLen := rfl
@[simp] theorem startOperation_i (m : Mode) (ph : Phase) (s : State) : (startOperation m ph s).i = s.i := rfl
@[simp] theorem startOperation_lb (m : Mode) (ph : Phase) (s : State) : (startOperation m ph s).lb = s.lb := rfl
@[simp] theorem startOperation_p (m : Mode) (ph : Phase) (s : State) : (startOperation m ph s).p = s.p := rfl
@[simp] theorem startOperation_olen (m : Mode) (ph : Phase) (s : State) : (startOperation m ph s).olen = 0 := rfl
@[simp] theorem startOperation_mode (m : Mode) (ph : Phase) (s : State) : (startOperation m ph s).mode = m := rfl
@[simp] theorem startOperation_status (m : Mode) (ph : Phase) (s : State) : (startOperation m ph s).status = statusStarted := rfl
@[simp] theorem startOperation_srcLen (m : Mode) (ph : Phase) (s : State) : (startOperation m ph s).srcLen = s.srcLen := rfl
@[simp] theorem startOperation_dstLen (m : Mode) (ph : Phase) (s : State) : (startOperation m ph s).dstLen = s.dstLen := rfl
@[simp] theorem startOperation_src (m : Mode) (ph : Phase) (s : State) : (startOperation m ph s).src = s.src := rfl
@[simp] theorem startOperation_dst (m : Mode) (ph : Phase) (s : State) : (startOperation m ph s).dst = s.dst := rfl
@[simp] theorem startOperation_host (m : Mode) (ph : Phase) (s : State) : (startOperation m ph s).host = s.host := rfl
@[simp] theorem startOperation_turns (m : Mode) (ph : Phase) (s : State) : (startOperation m ph s).turns = s.turns := rfl
@[simp] theorem startOperation_reply (m : Mode) (ph : Phase) (s : State) : (startOperation m ph s).reply = s.reply := rfl
@[simp] theorem startOperation_resets (m : Mode) (ph : Phase) (s : State) : (startOperation m ph s).resets = s.resets := rfl
@[simp] theorem startOperation_draws (m : Mode) (ph : Phase) (s : State) : (startOperation m ph s).draws = s.draws := rfl

/-! ## taking a turn -/

@[simp] theorem takeTurn_cfg (s : State) : (takeTurn s).cfg = s.cfg := rfl
@[simp] theorem takeTurn_phase (s : State) : (takeTurn s).phase = s.phase := rfl
@[simp] theorem takeTurn_n (s : State) : (takeTurn s).n = s.n := rfl
@[simp] theorem takeTurn_i (s : State) : (takeTurn s).i = s.i := rfl
@[simp] theorem takeTurn_lb (s : State) : (takeTurn s).lb = s.lb := rfl
@[simp] theorem takeTurn_p (s : State) : (takeTurn s).p = s.p := rfl
@[simp] theorem takeTurn_olen (s : State) : (takeTurn s).olen = s.olen := rfl
@[simp] theorem takeTurn_mode (s : State) : (takeTurn s).mode = s.mode := rfl
@[simp] theorem takeTurn_status (s : State) : (takeTurn s).status = s.status := rfl
@[simp] theorem takeTurn_srcLen (s : State) : (takeTurn s).srcLen = s.srcLen := rfl
@[simp] theorem takeTurn_dstLen (s : State) : (takeTurn s).dstLen = s.dstLen := rfl
@[simp] theorem takeTurn_src (s : State) : (takeTurn s).src = s.src := rfl
@[simp] theorem takeTurn_dst (s : State) : (takeTurn s).dst = s.dst := rfl
@[simp] theorem takeTurn_host (s : State) : (takeTurn s).host = s.host := rfl
@[simp] theorem takeTurn_turns (s : State) : (takeTurn s).turns = s.turns.tail := rfl
@[simp] theorem takeTurn_reply (s : State) : (takeTurn s).reply = s.reply := rfl
@[simp] theorem takeTurn_resets (s : State) : (takeTurn s).resets = s.resets := rfl
@[simp] theorem takeTurn_draws (s : State) : (takeTurn s).draws = s.draws := rfl

/-! ## a host read -/

@[simp] theorem answer_cfg (r : Reply) (s : State) : (answer r s).cfg = s.cfg := rfl
@[simp] theorem answer_phase (r : Reply) (s : State) : (answer r s).phase = s.phase := rfl
@[simp] theorem answer_n (r : Reply) (s : State) : (answer r s).n = s.n := rfl
@[simp] theorem answer_i (r : Reply) (s : State) : (answer r s).i = s.i := rfl
@[simp] theorem answer_lb (r : Reply) (s : State) : (answer r s).lb = s.lb := rfl
@[simp] theorem answer_p (r : Reply) (s : State) : (answer r s).p = s.p := rfl
@[simp] theorem answer_olen (r : Reply) (s : State) : (answer r s).olen = s.olen := rfl
@[simp] theorem answer_mode (r : Reply) (s : State) : (answer r s).mode = s.mode := rfl
@[simp] theorem answer_status (r : Reply) (s : State) : (answer r s).status = s.status := rfl
@[simp] theorem answer_srcLen (r : Reply) (s : State) : (answer r s).srcLen = s.srcLen := rfl
@[simp] theorem answer_dstLen (r : Reply) (s : State) : (answer r s).dstLen = s.dstLen := rfl
@[simp] theorem answer_src (r : Reply) (s : State) : (answer r s).src = s.src := rfl
@[simp] theorem answer_dst (r : Reply) (s : State) : (answer r s).dst = s.dst := rfl
@[simp] theorem answer_host (r : Reply) (s : State) : (answer r s).host = s.host := rfl
@[simp] theorem answer_turns (r : Reply) (s : State) : (answer r s).turns = s.turns := rfl
@[simp] theorem answer_reply (r : Reply) (s : State) : (answer r s).reply = some r := rfl
@[simp] theorem answer_resets (r : Reply) (s : State) : (answer r s).resets = s.resets := rfl
@[simp] theorem answer_draws (r : Reply) (s : State) : (answer r s).draws = s.draws + 1 := rfl

/-! ## the first half of ENC-LITERAL (R75) -/

@[simp] theorem takeLiteral_cfg (s : State) : (takeLiteral s).cfg = s.cfg := rfl
@[simp] theorem takeLiteral_phase (s : State) : (takeLiteral s).phase = s.phase := rfl
@[simp] theorem takeLiteral_n (s : State) : (takeLiteral s).n = s.n := rfl
@[simp] theorem takeLiteral_i (s : State) : (takeLiteral s).i = s.i + BitVec.ofNat 32 1 := rfl
@[simp] theorem takeLiteral_lb (s : State) : (takeLiteral s).lb = s.lb.push (srcByte s s.i.toNat) := rfl
@[simp] theorem takeLiteral_p (s : State) : (takeLiteral s).p = s.p := rfl
@[simp] theorem takeLiteral_olen (s : State) : (takeLiteral s).olen = s.olen := rfl
@[simp] theorem takeLiteral_mode (s : State) : (takeLiteral s).mode = s.mode := rfl
@[simp] theorem takeLiteral_status (s : State) : (takeLiteral s).status = s.status := rfl
@[simp] theorem takeLiteral_srcLen (s : State) : (takeLiteral s).srcLen = s.srcLen := rfl
@[simp] theorem takeLiteral_dstLen (s : State) : (takeLiteral s).dstLen = s.dstLen := rfl
@[simp] theorem takeLiteral_src (s : State) : (takeLiteral s).src = s.src := rfl
@[simp] theorem takeLiteral_dst (s : State) : (takeLiteral s).dst = s.dst := rfl
@[simp] theorem takeLiteral_host (s : State) : (takeLiteral s).host = s.host := rfl
@[simp] theorem takeLiteral_turns (s : State) : (takeLiteral s).turns = s.turns := rfl
@[simp] theorem takeLiteral_reply (s : State) : (takeLiteral s).reply = s.reply := rfl
@[simp] theorem takeLiteral_resets (s : State) : (takeLiteral s).resets = s.resets := rfl
@[simp] theorem takeLiteral_draws (s : State) : (takeLiteral s).draws = s.draws := rfl

end Sys2Proof.Machine
end

