-- ==== Sys2Proof/Laws/Append.lean ====
section
/-! SUPPORT. What appending bytes and copying back do: the frame field by field, then one equation each. -/

namespace Sys2Proof.Machine

/-! ## The frame -/

@[simp] theorem appendAll_cfg (s : State) (bs : List Byte) : (s.appendAll bs).cfg = s.cfg := by
  induction bs generalizing s with
  | nil => rfl
  | cons b bs ih => simp [State.appendAll, ih]

@[simp] theorem copyBack_cfg (s : State) (base l : Nat) : (s.copyBack base l).cfg = s.cfg := by
  induction l generalizing s base with
  | zero => rfl
  | succ l ih => simp [State.copyBack, ih]

@[simp] theorem appendAll_phase (s : State) (bs : List Byte) : (s.appendAll bs).phase = s.phase := by
  induction bs generalizing s with
  | nil => rfl
  | cons b bs ih => simp [State.appendAll, ih]

@[simp] theorem copyBack_phase (s : State) (base l : Nat) : (s.copyBack base l).phase = s.phase := by
  induction l generalizing s base with
  | zero => rfl
  | succ l ih => simp [State.copyBack, ih]

@[simp] theorem appendAll_n (s : State) (bs : List Byte) : (s.appendAll bs).n = s.n := by
  induction bs generalizing s with
  | nil => rfl
  | cons b bs ih => simp [State.appendAll, ih]

@[simp] theorem copyBack_n (s : State) (base l : Nat) : (s.copyBack base l).n = s.n := by
  induction l generalizing s base with
  | zero => rfl
  | succ l ih => simp [State.copyBack, ih]

@[simp] theorem appendAll_i (s : State) (bs : List Byte) : (s.appendAll bs).i = s.i := by
  induction bs generalizing s with
  | nil => rfl
  | cons b bs ih => simp [State.appendAll, ih]

@[simp] theorem copyBack_i (s : State) (base l : Nat) : (s.copyBack base l).i = s.i := by
  induction l generalizing s base with
  | zero => rfl
  | succ l ih => simp [State.copyBack, ih]

@[simp] theorem appendAll_lb (s : State) (bs : List Byte) : (s.appendAll bs).lb = s.lb := by
  induction bs generalizing s with
  | nil => rfl
  | cons b bs ih => simp [State.appendAll, ih]

@[simp] theorem copyBack_lb (s : State) (base l : Nat) : (s.copyBack base l).lb = s.lb := by
  induction l generalizing s base with
  | zero => rfl
  | succ l ih => simp [State.copyBack, ih]

@[simp] theorem appendAll_p (s : State) (bs : List Byte) : (s.appendAll bs).p = s.p := by
  induction bs generalizing s with
  | nil => rfl
  | cons b bs ih => simp [State.appendAll, ih]

@[simp] theorem copyBack_p (s : State) (base l : Nat) : (s.copyBack base l).p = s.p := by
  induction l generalizing s base with
  | zero => rfl
  | succ l ih => simp [State.copyBack, ih]

@[simp] theorem appendAll_mode (s : State) (bs : List Byte) : (s.appendAll bs).mode = s.mode := by
  induction bs generalizing s with
  | nil => rfl
  | cons b bs ih => simp [State.appendAll, ih]

@[simp] theorem copyBack_mode (s : State) (base l : Nat) : (s.copyBack base l).mode = s.mode := by
  induction l generalizing s base with
  | zero => rfl
  | succ l ih => simp [State.copyBack, ih]

@[simp] theorem appendAll_status (s : State) (bs : List Byte) : (s.appendAll bs).status = s.status := by
  induction bs generalizing s with
  | nil => rfl
  | cons b bs ih => simp [State.appendAll, ih]

@[simp] theorem copyBack_status (s : State) (base l : Nat) : (s.copyBack base l).status = s.status := by
  induction l generalizing s base with
  | zero => rfl
  | succ l ih => simp [State.copyBack, ih]

@[simp] theorem appendAll_srcLen (s : State) (bs : List Byte) : (s.appendAll bs).srcLen = s.srcLen := by
  induction bs generalizing s with
  | nil => rfl
  | cons b bs ih => simp [State.appendAll, ih]

@[simp] theorem copyBack_srcLen (s : State) (base l : Nat) : (s.copyBack base l).srcLen = s.srcLen := by
  induction l generalizing s base with
  | zero => rfl
  | succ l ih => simp [State.copyBack, ih]

@[simp] theorem appendAll_dstLen (s : State) (bs : List Byte) : (s.appendAll bs).dstLen = s.dstLen := by
  induction bs generalizing s with
  | nil => rfl
  | cons b bs ih => simp [State.appendAll, ih]

@[simp] theorem copyBack_dstLen (s : State) (base l : Nat) : (s.copyBack base l).dstLen = s.dstLen := by
  induction l generalizing s base with
  | zero => rfl
  | succ l ih => simp [State.copyBack, ih]

@[simp] theorem appendAll_src (s : State) (bs : List Byte) : (s.appendAll bs).src = s.src := by
  induction bs generalizing s with
  | nil => rfl
  | cons b bs ih => simp [State.appendAll, ih]

@[simp] theorem copyBack_src (s : State) (base l : Nat) : (s.copyBack base l).src = s.src := by
  induction l generalizing s base with
  | zero => rfl
  | succ l ih => simp [State.copyBack, ih]

@[simp] theorem appendAll_host (s : State) (bs : List Byte) : (s.appendAll bs).host = s.host := by
  induction bs generalizing s with
  | nil => rfl
  | cons b bs ih => simp [State.appendAll, ih]

@[simp] theorem copyBack_host (s : State) (base l : Nat) : (s.copyBack base l).host = s.host := by
  induction l generalizing s base with
  | zero => rfl
  | succ l ih => simp [State.copyBack, ih]

@[simp] theorem appendAll_turns (s : State) (bs : List Byte) : (s.appendAll bs).turns = s.turns := by
  induction bs generalizing s with
  | nil => rfl
  | cons b bs ih => simp [State.appendAll, ih]

@[simp] theorem copyBack_turns (s : State) (base l : Nat) : (s.copyBack base l).turns = s.turns := by
  induction l generalizing s base with
  | zero => rfl
  | succ l ih => simp [State.copyBack, ih]

@[simp] theorem appendAll_reply (s : State) (bs : List Byte) : (s.appendAll bs).reply = s.reply := by
  induction bs generalizing s with
  | nil => rfl
  | cons b bs ih => simp [State.appendAll, ih]

@[simp] theorem copyBack_reply (s : State) (base l : Nat) : (s.copyBack base l).reply = s.reply := by
  induction l generalizing s base with
  | zero => rfl
  | succ l ih => simp [State.copyBack, ih]

@[simp] theorem appendAll_resets (s : State) (bs : List Byte) : (s.appendAll bs).resets = s.resets := by
  induction bs generalizing s with
  | nil => rfl
  | cons b bs ih => simp [State.appendAll, ih]

@[simp] theorem copyBack_resets (s : State) (base l : Nat) : (s.copyBack base l).resets = s.resets := by
  induction l generalizing s base with
  | zero => rfl
  | succ l ih => simp [State.copyBack, ih]

@[simp] theorem appendAll_draws (s : State) (bs : List Byte) : (s.appendAll bs).draws = s.draws := by
  induction bs generalizing s with
  | nil => rfl
  | cons b bs ih => simp [State.appendAll, ih]

@[simp] theorem copyBack_draws (s : State) (base l : Nat) : (s.copyBack base l).draws = s.draws := by
  induction l generalizing s base with
  | zero => rfl
  | succ l ih => simp [State.copyBack, ih]

/-! ## Appending -/

theorem appendAll_append (s : State) (bs cs : List Byte) :
    s.appendAll (bs ++ cs) = (s.appendAll bs).appendAll cs := by
  induction bs generalizing s with
  | nil => rfl
  | cons b bs ih => exact ih _

theorem word_add_toNat (w : Word) (k : Nat) (h : w.toNat + k < 2 ^ 32) :
    (w + BitVec.ofNat 32 k).toNat = w.toNat + k := by
  simp only [BitVec.toNat_add, BitVec.toNat_ofNat]
  omega

/-- Appending while `olen` does not wrap, in one equation: the bytes stand from `olen` on, and `olen` counts them. -/
theorem appendAll_eq (s : State) (bs : List Byte) (h : s.olen.toNat + bs.length < 2 ^ 32) :
    s.appendAll bs =
      { s with dst := s.dst.writeAll s.olen.toNat bs, olen := s.olen + BitVec.ofNat 32 bs.length } := by
  induction bs generalizing s with
  | nil => simp [State.appendAll, Memory.writeAll]
  | cons b bs ih =>
    simp only [List.length_cons] at h
    have h1 : (s.olen + 1).toNat = s.olen.toNat + 1 := word_add_toNat s.olen 1 (by omega)
    rw [State.appendAll, ih _ (by rw [append_olen, h1]; omega)]
    simp only [State.append, h1, Memory.writeAll, List.length_cons]
    congr 1
    apply BitVec.eq_of_toNat_eq
    simp only [BitVec.toNat_add, BitVec.toNat_ofNat, h1]
    omega

theorem appendAll_olen (s : State) (bs : List Byte) (h : s.olen.toNat + bs.length < 2 ^ 32) :
    (s.appendAll bs).olen.toNat = s.olen.toNat + bs.length := by
  rw [appendAll_eq s bs h]
  exact word_add_toNat _ _ h

/-- What a read of DST finds after appending. -/
theorem appendAll_read (s : State) (bs : List Byte) (h : s.olen.toNat + bs.length < 2 ^ 32) (j : Nat) :
    (s.appendAll bs).dst.read j =
      if hj : s.olen.toNat ≤ j ∧ j < s.olen.toNat + bs.length then some (bs[j - s.olen.toNat]'(by omega))
      else s.dst.read j := by
  rw [appendAll_eq s bs h]
  exact Memory.read_writeAll _ _ _ _

theorem appendAll_read_new (s : State) (bs : List Byte) (h : s.olen.toNat + bs.length < 2 ^ 32) (k : Nat)
    (hk : k < bs.length) : (s.appendAll bs).dst.read (s.olen.toNat + k) = some bs[k] := by
  rw [appendAll_read s bs h, dif_pos (by omega)]
  simp

theorem appendAll_read_other (s : State) (bs : List Byte) (h : s.olen.toNat + bs.length < 2 ^ 32) (j : Nat)
    (hj : ¬ (s.olen.toNat ≤ j ∧ j < s.olen.toNat + bs.length)) : (s.appendAll bs).dst.read j = s.dst.read j := by
  rw [appendAll_read s bs h, dif_neg hj]

theorem append_dst_wf {s : State} (h : s.dst.wf) (bs : List Byte) : (s.appendAll bs).dst.wf := by
  induction bs generalizing s with
  | nil => exact h
  | cons b bs ih => exact ih (Memory.write_wf h _ _)

theorem Memory.mem_writeAll {m : Memory} {k : Nat} {bs : List Byte} {c : Host.Cell} (h : c ∈ m.writeAll k bs) :
    (k ≤ c.1 ∧ c.1 < k + bs.length) ∨ c ∈ m := by
  induction bs generalizing m k with
  | nil => exact .inr h
  | cons b bs ih =>
    rcases ih h with h | h
    · left
      simp only [List.length_cons]
      omega
    · rcases Memory.mem_write h with rfl | h
      · left
        simp
      · exact .inr h

/-- Appending stays inside the buffer when the output fits. -/
theorem appendAll_inside {s : State} {bs : List Byte} {bound : Nat} (h : ∀ c ∈ s.dst, c.1 < bound)
    (hfit : s.olen.toNat + bs.length ≤ bound) (hw : s.olen.toNat + bs.length < 2 ^ 32) :
    ∀ c ∈ (s.appendAll bs).dst, c.1 < bound := by
  intro c hc
  rw [appendAll_eq s bs hw] at hc
  rcases Memory.mem_writeAll hc with hc | hc
  · omega
  · exact h c hc

/-! ## The overlapping copy -/

/-- The bytes a copy from `d` back appends, by R91's formula. -/
def copiedBytes (s : State) (d l : Nat) : List Byte :=
  (List.range l).map fun k => dstByte s (s.olen.toNat - d + k % d)

@[simp] theorem copiedBytes_length (s : State) (d l : Nat) : (copiedBytes s d l).length = l := by
  simp [copiedBytes]

theorem copiedBytes_succ (s : State) (d l : Nat) :
    copiedBytes s d (l + 1) = copiedBytes s d l ++ [dstByte s (s.olen.toNat - d + l % d)] := by
  simp [copiedBytes, List.range_succ]

theorem copyBack_from (s : State) (d t r : Nat) (hd : 1 ≤ d) (hdo : d ≤ s.olen.toNat)
    (hw : s.olen.toNat + (t + r) < 2 ^ 32) :
    (s.appendAll (copiedBytes s d t)).copyBack (s.olen.toNat - d + t) r = s.appendAll (copiedBytes s d (t + r)) := by
  induction r generalizing t with
  | zero => rfl
  | succ r ih =>
    have hlen : s.olen.toNat + (copiedBytes s d t).length < 2 ^ 32 := by simp; omega
    have hbyte : dstByte (s.appendAll (copiedBytes s d t)) (s.olen.toNat - d + t) =
        dstByte s (s.olen.toNat - d + t % d) := by
      unfold dstByte
      rw [appendAll_read _ _ hlen, appendAll_draws]
      by_cases htd : t < d
      · rw [dif_neg (by omega), Nat.mod_eq_of_lt htd]
      · rw [dif_pos (by simp; omega)]
        have hmod : (t - d) % d = t % d := (Nat.mod_eq_sub_mod (by omega)).symm
        have hidx : s.olen.toNat - d + t - s.olen.toNat = t - d := by omega
        simp only [Option.getD_some, hidx, copiedBytes, List.getElem_map, List.getElem_range, hmod]
        rfl
    have hstep : (s.appendAll (copiedBytes s d t)).append (dstByte s (s.olen.toNat - d + t % d)) =
        s.appendAll (copiedBytes s d (t + 1)) := by
      rw [copiedBytes_succ, appendAll_append]
      rfl
    rw [State.copyBack, hbyte, hstep, Nat.add_assoc, ih (t + 1) (by omega)]
    congr 2
    omega

/-- The overlapping copy in one equation (R91): byte `k` of the copy is byte `k mod d` of the last `d` bytes of the
output before it. -/
theorem copyBack_eq (s : State) (d l : Nat) (hd : 1 ≤ d) (hdo : d ≤ s.olen.toNat)
    (hw : s.olen.toNat + l < 2 ^ 32) : s.copyBack (s.olen.toNat - d) l = s.appendAll (copiedBytes s d l) := by
  simpa [copiedBytes, State.appendAll] using copyBack_from s d 0 l hd hdo (by omega)

end Sys2Proof.Machine
end

