-- ==== Sys2Proof/Laws/Codec.lean ====
section
/-! SUPPORT. The token fields as plain arithmetic, so that omega settles what the codec does. -/

namespace Sys2Proof

theorem tagBit_eq (b0 : Byte) : tagBit b0 = decide (128 ≤ b0.toNat) := by
  have hlt := b0.isLt
  rw [tagBit, BitVec.getLsbD, Nat.testBit_eq_decide_div_mod_eq]
  congr 1
  apply propext
  omega

theorem litCount_eq (b0 : Byte) : litCount b0 = b0.toNat % 128 := by
  simpa [litCount] using Nat.and_two_pow_sub_one_eq_mod b0.toNat 7

theorem litCount_le (b0 : Byte) : litCount b0 ≤ 127 := by
  rw [litCount_eq]
  omega

theorem brefLength_eq (b1 : Byte) : brefLength b1 = b1.toNat % 16 + 1 := by
  simpa [brefLength] using Nat.and_two_pow_sub_one_eq_mod b1.toNat 4

theorem shift_or_eq (x y : Nat) (h : y < 16) : (x <<< 4) ||| y = x * 16 + y := by
  rw [← Nat.shiftLeft_add_eq_or_of_lt (b := y) (i := 4) (by simpa using h) x, Nat.shiftLeft_eq]

theorem brefDistance_eq (b0 b1 : Byte) : brefDistance b0 b1 = b0.toNat % 128 * 16 + b1.toNat / 16 := by
  have hlt := b1.isLt
  have h1 : (b0 &&& 0x7F#8).toNat = b0.toNat % 128 := by
    simpa using Nat.and_two_pow_sub_one_eq_mod b0.toNat 7
  have h2 : (b1 >>> 4).toNat = b1.toNat / 16 := by simp [Nat.shiftRight_eq_div_pow]
  rw [brefDistance, h1, h2, shift_or_eq _ _ (by omega)]

theorem serBref_eq (d l : Nat) (hd : d ≤ 2047) :
    serBref d l = [BitVec.ofNat 8 (128 + d / 16), BitVec.ofNat 8 ((d % 16 * 16) ||| (l - 1))] := by
  have h1 : d >>> 4 = d / 16 := by simp [Nat.shiftRight_eq_div_pow]
  have h2 : d &&& 0x0F = d % 16 := Nat.and_two_pow_sub_one_eq_mod d 4
  have h3 : 0x80 ||| d / 16 = 128 + d / 16 := by
    have := Nat.shiftLeft_add_eq_or_of_lt (b := d / 16) (i := 7) (by omega) 1
    simpa using this.symm
  rw [serBref, h1, h2, h3, Nat.shiftLeft_eq]

/-- The two bytes of a BREF as numbers (R53). -/
theorem serBref_toNat (d l : Nat) (hd : d ≤ 2047) (hl : 1 ≤ l) (hl' : l ≤ 16) :
    (serBref d l).map BitVec.toNat = [128 + d / 16, d % 16 * 16 + (l - 1)] := by
  have h := shift_or_eq (d % 16) (l - 1) (by omega)
  rw [Nat.shiftLeft_eq] at h
  norm_num at h
  rw [serBref_eq d l hd, h]
  simp only [List.map_cons, List.map_nil, BitVec.toNat_ofNat]
  congr 1
  · omega
  · congr 1
    omega

@[simp] theorem serBref_length (d l : Nat) : (serBref d l).length = 2 := rfl

@[simp] theorem serLit_length (payload : List Byte) : (serLit payload).length = payload.length + 1 := rfl

/-- What the decoder makes of a LIT's count byte. -/
theorem decodeToken_lit (b0 : Byte) (rest : List Byte) (h : b0.toNat < 128) :
    decodeToken (b0 :: rest) =
      if rest.length < b0.toNat then .error .truncatedLiteral
      else .ok (.lit (rest.take b0.toNat), rest.drop b0.toNat) := by
  have h1 : litCount b0 = b0.toNat := by
    rw [litCount_eq]
    omega
  simp [decodeToken, tagBit_eq, h1, show ¬ 128 ≤ b0.toNat by omega]

/-- What the decoder makes of a BREF's two bytes. -/
theorem decodeToken_bref (b0 b1 : Byte) (rest : List Byte) (h : 128 ≤ b0.toNat) :
    decodeToken (b0 :: b1 :: rest) = .ok (.bref (brefDistance b0 b1) (brefLength b1), rest) := by
  simp [decodeToken, tagBit_eq, h]

/-- A BREF's tag byte with nothing after it. -/
theorem decodeToken_bref_alone (b0 : Byte) (h : 128 ≤ b0.toNat) :
    decodeToken [b0] = .error .missingSecondByte := by
  simp [decodeToken, tagBit_eq, h]

end Sys2Proof
end

