-- ==== Sys2Proof/Laws/LitBuf.lean ====
section
/-! SUPPORT. The literal buffer as a sequence. -/

namespace Sys2Proof.Machine

theorem LitBuf.seq_length (b : LitBuf) : b.seq.length = b.count.toNat := by
  have := b.count.isLt
  simp [LitBuf.seq]
  omega

@[simp] theorem LitBuf.clear_seq (b : LitBuf) : b.clear.seq = [] := by simp [LitBuf.clear, LitBuf.seq]

@[simp] theorem LitBuf.clear_count (b : LitBuf) : b.clear.count = 0 := rfl

theorem LitBuf.push_count (b : LitBuf) (x : Byte) (h : b.count.toNat ≤ 126) :
    (b.push x).count.toNat = b.count.toNat + 1 := by
  have h1 : (1 : BitVec 7).toNat = 1 := rfl
  simp only [LitBuf.push, BitVec.toNat_add, h1]
  omega

theorem list_take_set_succ {α : Type} (l : List α) (k : Nat) (x : α) (h : k < l.length) :
    (l.set k x).take (k + 1) = l.take k ++ [x] := by
  rw [List.take_succ_eq_append_getElem (by simpa using h), List.take_set_of_le (Nat.le_refl k)]
  simp

/-- Pushing appends one byte while the buffer has room. -/
theorem LitBuf.push_seq (b : LitBuf) (x : Byte) (h : b.count.toNat ≤ 126) : (b.push x).seq = b.seq ++ [x] := by
  unfold LitBuf.seq
  rw [LitBuf.push_count b x h]
  have hl : (b.bytes.setIfInBounds b.count.toNat x).toList = b.bytes.toList.set b.count.toNat x := by
    simp
  simp only [LitBuf.push, hl]
  exact list_take_set_succ _ _ _ (by simp; omega)

end Sys2Proof.Machine
end

