-- ==== Sys2Proof/Laws/Encoder.lean ====
section
/-! SUPPORT. What each part of an encoder step answers, in one equation where the output fits DST. -/

namespace Sys2Proof.Machine

theorem litIfAny_length (lb : List Byte) : (litIfAny lb).length = if lb = [] then 0 else lb.length + 1 := by
  unfold litIfAny
  split <;> simp

theorem litIfAny_length_le (lb : List Byte) : (litIfAny lb).length ≤ lb.length + 1 := by
  rw [litIfAny_length]
  split <;> omega

theorem seq_eq_nil_iff (b : LitBuf) : b.seq = [] ↔ b.count.toNat = 0 := by
  rw [← LitBuf.seq_length, List.length_eq_zero_iff]

/-- Everything EMIT can do (R77). -/
theorem emit_cases (t : List Byte) (s : State) :
    (s.cfg.dstCap < s.olen.toNat + t.length ∧ emit t s = .error (raise .outputOverflow s)) ∨
    (s.olen.toNat + t.length ≤ s.cfg.dstCap ∧ emit t s = .ok (s.appendAll t)) := by
  unfold emit
  split
  · rename_i h
    exact .inl ⟨h, rfl⟩
  · rename_i h
    exact .inr ⟨by omega, rfl⟩

theorem emit_fits {t : List Byte} {s : State} (h : s.olen.toNat + t.length ≤ s.cfg.dstCap) :
    emit t s = .ok (s.appendAll t) := by
  rcases emit_cases t s with ⟨h', _⟩ | ⟨_, h'⟩
  · omega
  · exact h'

/-- FLUSH where the output fits (R76). -/
theorem flush_fits {s : State} (h : s.olen.toNat + (s.lbLen + 1) ≤ s.cfg.dstCap) :
    flush s = .ok { s.appendAll (serLit s.lb.seq) with lb := s.lb.clear } := by
  have hl : (serLit s.lb.seq).length = s.lbLen + 1 := by
    rw [serLit_length, LitBuf.seq_length]
    rfl
  rw [flush, emit_fits (by rw [hl]; exact h)]
  simp

/-- The conditional flush where the output fits: the pending run, if any, is appended, and LB is empty. -/
theorem flushPending_fits {s : State} (h : s.olen.toNat + (litIfAny s.lb.seq).length ≤ s.cfg.dstCap) :
    flushPending s = .ok { s.appendAll (litIfAny s.lb.seq) with lb := s.lb.clear } := by
  unfold flushPending
  by_cases hz : s.lb.count.toNat = 0
  · have hs : s.lb.seq = [] := (seq_eq_nil_iff _).2 hz
    have hc : s.lb.clear = s.lb := by
      have : s.lb.count = 0 := BitVec.eq_of_toNat_eq (by simpa using hz)
      rw [LitBuf.clear, ← this]
    rw [if_neg (by simp [State.lbLen, hz]), hc, hs]
    rfl
  · have hs : s.lb.seq ≠ [] := fun hs => hz ((seq_eq_nil_iff _).1 hs)
    have hl : litIfAny s.lb.seq = serLit s.lb.seq := by simp [litIfAny, hs]
    rw [hl] at h ⊢
    rw [if_pos (by simp only [State.lbLen]; omega)]
    apply flush_fits
    rw [serLit_length, LitBuf.seq_length] at h
    exact h

/-- ENC-MATCH where the output fits (R74). -/
theorem encMatch_fits {s : State} {d l : Nat} (hcap : s.cfg.dstCap < 2 ^ 32)
    (h : s.olen.toNat + (litIfAny s.lb.seq ++ serBref d l).length ≤ s.cfg.dstCap) :
    encMatch d l s =
      .ok (({ s.appendAll (litIfAny s.lb.seq ++ serBref d l) with lb := s.lb.clear } : State).advanceI l) := by
  rw [List.length_append] at h
  have h1 : (s.appendAll (litIfAny s.lb.seq)).olen.toNat = s.olen.toNat + (litIfAny s.lb.seq).length :=
    appendAll_olen _ _ (by omega)
  rw [encMatch, flushPending_fits (by omega)]
  simp only
  rw [emit_fits (by simp only [appendAll_cfg, h1]; omega)]
  rw [appendAll_append]
  rfl

/-- ENC-LITERAL where the buffer keeps room (R75). -/
theorem encLiteral_room {s : State} (h : s.lbLen + 1 ≤ 126) : encLiteral s = .ok (takeLiteral s) := by
  have hc := LitBuf.push_count s.lb (srcByte s s.i.toNat) (by simp only [State.lbLen] at h; omega)
  rw [encLiteral, if_neg]
  simp only [State.lbLen, takeLiteral_lb, hc, Config.maxLit] at h ⊢
  omega

/-- ENC-LITERAL where the buffer fills and the output fits (R75). -/
theorem encLiteral_full {s : State} (h : s.lbLen = 126) (hfit : s.olen.toNat + 128 ≤ s.cfg.dstCap) :
    encLiteral s =
      .ok { (takeLiteral s).appendAll (serLit (s.lb.seq ++ [srcByte s s.i.toNat])) with
            lb := (takeLiteral s).lb.clear } := by
  have h' : s.lb.count.toNat = 126 := h
  have hc := LitBuf.push_count s.lb (srcByte s s.i.toNat) (by omega)
  have hl : (takeLiteral s).lbLen = 127 := by
    simp only [State.lbLen, takeLiteral_lb, hc, h']
  rw [encLiteral, if_pos hl, flush_fits (by rw [hl]; simpa using hfit), takeLiteral_lb,
    LitBuf.push_seq _ _ (by omega)]

/-- ENC-FINISH where the output fits (R78). -/
theorem encFinish_fits {s : State} (h : s.olen.toNat + (litIfAny s.lb.seq).length ≤ s.cfg.dstCap) :
    encFinish s = .ok (complete { s.appendAll (litIfAny s.lb.seq) with lb := s.lb.clear }) := by
  rw [encFinish, flushPending_fits h]

end Sys2Proof.Machine
end

