-- ==== Sys2Proof/Laws/MatchFinder.lean ====
section
/-! SUPPORT. What the match finder's parts answer. -/

namespace Sys2Proof.Machine

theorem occursAt_iff (overlap : Bool) (S : List Byte) (i k j : Nat) :
    occursAt overlap S i k j = true ↔
      windowLow i ≤ j ∧ (if overlap then j < i else j + k ≤ i) ∧ slice S j (j + k) = slice S i (i + k) := by
  cases overlap <;> simp [occursAt, eligible, and_assoc]

theorem slice_length (S : List Byte) (a k : Nat) (h : a + k ≤ S.length) : (slice S a (a + k)).length = k := by
  simp [slice]
  omega

theorem slice_getElem? (S : List Byte) (a k t : Nat) :
    (slice S a (a + k))[t]? = if t < k then S[a + t]? else none := by
  simp only [slice, Nat.add_sub_cancel_left, List.getElem?_take, List.getElem?_drop]

/-- Two slices are equal exactly when they agree byte by byte (R63). -/
theorem slice_eq_iff (S T : List Byte) (a b k : Nat) :
    slice S a (a + k) = slice T b (b + k) ↔ ∀ t < k, S[a + t]? = T[b + t]? := by
  constructor
  · intro h t ht
    have := congrArg (fun l => l[t]?) h
    simpa [slice_getElem?, ht] using this
  · intro h
    apply List.ext_getElem?
    intro t
    rw [slice_getElem?, slice_getElem?]
    split
    · rename_i ht
      exact h t ht
    · rfl

/-- Occurrence is monotone in the length (R68). -/
theorem occursAt_of_succ {overlap : Bool} {S : List Byte} {i k j : Nat} (h : occursAt overlap S i (k + 1) j = true) :
    occursAt overlap S i k j = true := by
  rw [occursAt_iff, slice_eq_iff] at h ⊢
  obtain ⟨h1, h2, h3⟩ := h
  refine ⟨h1, ?_, fun t ht => h3 t (by omega)⟩
  cases overlap
  · simp only [Bool.false_eq_true, if_false] at h2 ⊢
    omega
  · simpa using h2

/-- A source lies strictly before the cursor. -/
theorem occursAt_lt {overlap : Bool} {S : List Byte} {i k j : Nat} (hk : 0 < k) (h : occursAt overlap S i k j = true) :
    j < i := by
  obtain ⟨_, h2, _⟩ := (occursAt_iff ..).1 h
  cases overlap
  · simp only [Bool.false_eq_true, if_false] at h2
    omega
  · simpa using h2

theorem nearest_eq_none {overlap : Bool} {S : List Byte} {i k bound : Nat} :
    nearest overlap S i k bound = none ↔ ∀ j < bound, occursAt overlap S i k j = false := by
  induction bound with
  | zero => simp [nearest]
  | succ b ih =>
    rw [nearest]
    split
    · rename_i h
      simp only [reduceCtorEq, false_iff]
      intro h'
      simp [h' b (by omega)] at h
    · rename_i h
      rw [ih]
      constructor
      · intro h' j hj
        by_cases hjb : j = b
        · subst hjb
          simpa using h
        · exact h' j (by omega)
      · exact fun h' j hj => h' j (by omega)

theorem nearest_eq_some {overlap : Bool} {S : List Byte} {i k bound j : Nat} :
    nearest overlap S i k bound = some j ↔
      j < bound ∧ occursAt overlap S i k j = true ∧ ∀ j', j < j' → j' < bound → occursAt overlap S i k j' = false := by
  induction bound with
  | zero => simp [nearest]
  | succ b ih =>
    rw [nearest]
    split
    · rename_i h
      simp only [Option.some.injEq]
      constructor
      · rintro rfl
        exact ⟨by omega, h, fun j' h1 h2 => by omega⟩
      · rintro ⟨h1, h2, h3⟩
        by_contra hne
        simp [h3 b (by omega) (by omega)] at h
    · rename_i h
      rw [ih]
      constructor
      · rintro ⟨h1, h2, h3⟩
        refine ⟨by omega, h2, fun j' hj hj' => ?_⟩
        by_cases hjb : j' = b
        · subst hjb
          simpa using h
        · exact h3 j' hj (by omega)
      · rintro ⟨h1, h2, h3⟩
        refine ⟨?_, h2, fun j' hj hj' => h3 j' hj (by omega)⟩
        by_contra hge
        have : j = b := by omega
        subst this
        exact h h2

/-- What the search answers: the best so far, when its first length fails, or the longest length of an unbroken run of
lengths that occur. -/
theorem searchFrom_cases (overlap : Bool) (S : List Byte) (i fuel k : Nat) (best : Option (Nat × Nat)) :
    (searchFrom overlap S i fuel k best = best ∧
      (fuel = 0 ∨ S.length < i + k ∨ nearest overlap S i k i = none)) ∨
    ∃ l j, k ≤ l ∧ l < k + fuel ∧ i + l ≤ S.length ∧ nearest overlap S i l i = some j ∧
      searchFrom overlap S i fuel k best = some (i - j, l) ∧
      (l + 1 = k + fuel ∨ S.length < i + (l + 1) ∨ nearest overlap S i (l + 1) i = none) := by
  induction fuel generalizing k best with
  | zero => exact .inl ⟨rfl, .inl rfl⟩
  | succ fuel ih =>
    rw [searchFrom]
    split
    · rename_i hk
      split
      · rename_i hn
        exact .inl ⟨rfl, .inr (.inr hn)⟩
      · rename_i j hj
        right
        rcases ih (k + 1) (some (i - j, k)) with ⟨h1, h2⟩ | ⟨l, j', h1, h2, h3, h4, h5, h6⟩
        · refine ⟨k, j, by omega, by omega, hk, hj, h1, ?_⟩
          rcases h2 with h2 | h2 | h2
          · left
            omega
          · exact .inr (.inl h2)
          · exact .inr (.inr h2)
        · exact ⟨l, j', by omega, by omega, h3, h4, h5, h6.imp (fun h => by omega) id⟩
    · exact .inl ⟨rfl, .inr (.inl (by omega))⟩

/-- What the match finder answers (R65): none, when fewer than 3 bytes remain or length 3 does not occur; or the nearest
occurrence of the last length that occurs. -/
theorem matchFind_cases (overlap : Bool) (S : List Byte) (i : Nat) :
    (matchFind overlap S i = none ∧ (S.length < i + 3 ∨ nearest overlap S i 3 i = none)) ∨
    ∃ l j, 3 ≤ l ∧ l ≤ 16 ∧ i + l ≤ S.length ∧ nearest overlap S i l i = some j ∧
      matchFind overlap S i = some (i - j, l) ∧
      (l = 16 ∨ S.length < i + (l + 1) ∨ nearest overlap S i (l + 1) i = none) := by
  rw [matchFind]
  split
  · rename_i h
    exact .inl ⟨rfl, .inl h⟩
  · rename_i h
    have hrounds : Config.maxMatch + 1 - Config.minMatch = 14 := rfl
    rw [hrounds]
    rcases searchFrom_cases overlap S i 14 3 none with
      ⟨h1, h2⟩ | ⟨l, j, h1, h2, h3, h4, h5, h6⟩
    · refine .inl ⟨h1, ?_⟩
      rcases h2 with h2 | h2 | h2
      · simp at h2
      · exact .inl h2
      · exact .inr h2
    · exact .inr ⟨l, j, h1, by omega, h3, h4, h5, h6.imp (fun h => by omega) id⟩

/-- The source of a match, its bytes and its bounds, in the form the encoder's users need (either reading of R62). -/
theorem matchFind_some {overlap : Bool} {S : List Byte} {i d l : Nat} (h : matchFind overlap S i = some (d, l)) :
    3 ≤ l ∧ l ≤ 16 ∧ i + l ≤ S.length ∧ 1 ≤ d ∧ d ≤ i ∧ d ≤ 2047 ∧ (∀ t < l, S[i - d + t]? = S[i + t]?) ∧
      occursAt overlap S i l (i - d) = true := by
  rcases matchFind_cases overlap S i with ⟨h1, _⟩ | ⟨l', j, h1, h2, h3, h4, h5, _⟩
  · rw [h] at h1
    cases h1
  · rw [h, Option.some.injEq, Prod.mk.injEq] at h5
    obtain ⟨hd, hl⟩ := h5
    obtain ⟨hj, ho, _⟩ := nearest_eq_some.1 h4
    have hback : i - d = j := by omega
    obtain ⟨w1, w2, w3⟩ := (occursAt_iff ..).1 ho
    have w1' : i ≤ j + 2047 := Nat.sub_le_iff_le_add.1 w1
    subst hl
    rw [hback]
    exact ⟨h1, h2, h3, by omega, by omega, by omega, (slice_eq_iff ..).1 w3, ho⟩

end Sys2Proof.Machine
end

