-- ==== Sys2Proof/Laws/Inv.lean ====
section
/-! SUPPORT. Each named operation keeps the invariant. -/

namespace Sys2Proof.Machine

theorem configValid_iff (c : Config) :
    configValid c = true ↔
      c.srcCap ≤ 4294967295 ∧ c.dstCap ≤ 4294967295 ∧ c.srcCap + (c.srcCap + 126) / 127 ≤ c.dstCap := by
  simp only [configValid, ceilDiv, Config.maxCap, Config.maxLit, Bool.and_eq_true, decide_eq_true_eq, and_assoc]
  norm_num

theorem Inv.dstCap_lt {s : State} (h : Inv s) : s.cfg.dstCap < 2 ^ 32 := by
  have := ((configValid_iff _).1 h.config).2.1
  omega

/-- The reset state of every accepted configuration satisfies the invariant (R124). -/
theorem inv_resetOf {c : Config} (hc : configValid c = true) : Inv (State.resetOf c) where
  config := hc
  srcWf := List.Pairwise.nil
  dstWf := List.Pairwise.nil
  srcInside := by simp [State.resetOf]
  dstInside := by simp [State.resetOf]
  srcLenBound := by simp [State.resetOf]
  nBound := by simp [State.resetOf]
  iBound := by simp [State.resetOf]
  pBound := by simp [State.resetOf]
  olenBound := by simp [State.resetOf]
  lbBound := by simp [State.resetOf, State.lbLen]
  busyPhase := by simp [State.resetOf]
  notBoth := by simp [State.resetOf]
  errBound := by simp [State.resetOf]
  errDone := by simp [State.resetOf]
  dstLenErr := by simp [State.resetOf]
  outputListed := by simp [State.resetOf]
  resultListed := by simp [State.resetOf]
  expansion := by simp [State.resetOf]

/-- The invariant says nothing about what belongs to the world outside the DCB. -/
theorem inv_outside {s : State} (h : Inv s) (host : List HostAction) (turns : List Agent) (reply : Option Reply)
    (resets draws : Nat) :
    Inv { s with host := host, turns := turns, reply := reply, resets := resets, draws := draws } :=
  { h with }

theorem inv_takeTurn {s : State} (h : Inv s) : Inv (takeTurn s) := inv_outside h s.host s.turns.tail s.reply s.resets s.draws

theorem inv_answer {s : State} (h : Inv s) (r : Reply) : Inv (answer r s) :=
  inv_outside h s.host s.turns (some r) s.resets (s.draws + 1)

theorem inv_resetDcb {s : State} (h : Inv s) : Inv (resetDcb s) :=
  inv_outside (inv_resetOf h.config) s.host s.turns s.reply (s.resets + 1) s.draws

theorem inv_setMode {s : State} (h : Inv s) (m : Mode) : Inv { s with mode := m } := { h with }

/-- The error completion keeps the invariant (R114). -/
theorem inv_raise {s : State} (h : Inv s) (e : ErrorKind) : Inv (raise e s) :=
  { h with
    dstWf := List.Pairwise.nil
    dstInside := by simp
    iBound := by simp
    pBound := by simp
    busyPhase := by simp [statusFailed]
    notBoth := by simp [statusFailed]
    errBound := by cases e <;> simp [statusFailed, ErrorKind.code]
    errDone := by simp [statusFailed]
    dstLenErr := by simp
    outputListed := by simp
    resultListed := by simp
    expansion := by simp }

/-- The success completion keeps the invariant, also after a last flush that appends `bs` and leaves LB as `lb` (R78,
R107). -/
theorem inv_complete_appended {s : State} {bs : List Byte} {lb : LitBuf} (h : Inv s) (hrun : s.phase ≠ .idle)
    (hfit : s.olen.toNat + bs.length ≤ s.cfg.dstCap) (hlb : lb.count.toNat ≤ 126) :
    Inv (complete { s.appendAll bs with lb := lb }) := by
  have hw : s.olen.toNat + bs.length < 2 ^ 32 := Nat.lt_of_le_of_lt hfit h.dstCap_lt
  have holen := appendAll_olen s bs hw
  constructor
  case config => simpa using h.config
  case srcWf => simpa using h.srcWf
  case dstWf => exact Memory.below_wf (append_dst_wf h.dstWf bs) _
  case srcInside => simpa using h.srcInside
  case dstInside =>
    intro c hc
    simpa using appendAll_inside h.dstInside hfit hw c (Memory.mem_below.1 hc).1
  case srcLenBound => simpa using h.srcLenBound
  case nBound => simpa using h.nBound
  case iBound => simp
  case pBound => simp
  case olenBound => simpa [holen] using hfit
  case lbBound => exact hlb
  case busyPhase => simp [statusDone]
  case notBoth => simp [statusDone]
  case errBound => simp [statusDone]
  case errDone => simp [statusDone]
  case dstLenErr => simp [statusDone]
  case outputListed => simp
  case resultListed =>
    intro _ k hk
    simp only [complete_dstLen] at hk
    simp only [complete_dst, Memory.read_below, if_pos hk]
    rw [appendAll_read _ _ hw]
    split
    · simp
    · rw [holen] at hk
      exact h.outputListed hrun k (by omega)
  case expansion => simp

/-- The success completion keeps the invariant (R107). -/
theorem inv_complete {s : State} (h : Inv s) (hrun : s.phase ≠ .idle) : Inv (complete s) :=
  inv_complete_appended (bs := []) (lb := s.lb) h hrun h.olenBound h.lbBound

theorem inv_startEncode {s : State} (h : Inv s) :
    Inv { startOperation .encode .enc s with i := 0, lb := s.lb.clear } :=
  { h with
    nBound := h.srcLenBound
    iBound := by simp
    pBound := by simp
    olenBound := by simp
    lbBound := by simp [State.lbLen]
    busyPhase := by simp [statusStarted]
    notBoth := by simp [statusStarted]
    errBound := by simp [statusStarted]
    errDone := by simp [statusStarted]
    dstLenErr := by simp [statusStarted]
    outputListed := by simp
    resultListed := by simp
    expansion := by simp [State.lbLen] }

theorem inv_startDecode {s : State} (h : Inv s) : Inv { startOperation .decode .dec s with p := 0 } :=
  { h with
    nBound := h.srcLenBound
    iBound := by simp
    pBound := by simp
    olenBound := by simp
    busyPhase := by simp [statusStarted]
    notBoth := by simp [statusStarted]
    errBound := by simp [statusStarted]
    errDone := by simp [statusStarted]
    dstLenErr := by simp [statusStarted]
    outputListed := by simp
    resultListed := by simp
    expansion := by simp }

theorem inv_writeSrcLen {s : State} (h : Inv s) (w : Word) : Inv (writeSrcLen w s) := by
  unfold writeSrcLen
  split
  · exact h
  · split
    · rename_i hw
      exact { h with srcLenBound := hw }
    · exact h

theorem inv_writeSrc {s : State} (h : Inv s) {k : Nat} (hk : k < s.cfg.srcCap) (b : Byte) : Inv (writeSrc k b s) := by
  unfold writeSrc
  split
  · exact h
  · refine { h with srcWf := Memory.write_wf h.srcWf k b, srcInside := fun c hc => ?_ }
    rcases Memory.mem_write hc with rfl | hc
    · exact hk
    · exact h.srcInside c hc

theorem inv_writeDst {s : State} (h : Inv s) {k : Nat} (hk : k < s.cfg.dstCap) (b : Byte) : Inv (writeDst k b s) := by
  unfold writeDst
  split
  · exact h
  · rename_i hbusy
    have hidle : s.phase = .idle := by
      by_contra hp
      exact hbusy (h.busyPhase.2 hp)
    refine { h with dstWf := Memory.write_wf h.dstWf k b, dstInside := fun c hc => ?_, outputListed := fun hp => ?_
                    resultListed := fun _ j hj => ?_ }
    · rcases Memory.mem_write hc with rfl | hc
      · exact hk
      · exact h.dstInside c hc
    · exact absurd hidle hp
    · simp only [Memory.read_write]
      split
      · simp
      · exact h.resultListed hidle j hj

/-- What a running operation's DST holds after appending `bs` (R16, R28). -/
structure Appended (s t : State) (bs : List Byte) : Prop where
  dst : t.dst = (s.appendAll bs).dst
  olen : t.olen = (s.appendAll bs).olen
  fits : s.olen.toNat + bs.length ≤ s.cfg.dstCap

/-- The output part of the invariant after appending, for a state `t` that differs from `s` in its cursors and LB. -/
theorem inv_appended {s t : State} {bs : List Byte} (h : Inv s) (hrun : s.phase ≠ .idle) (ha : Appended s t bs)
    (hframe : t = { s with i := t.i, lb := t.lb, p := t.p, olen := t.olen, dst := t.dst })
    (hi : s.phase = .enc → t.i.toNat ≤ s.n.toNat) (hp : s.phase = .dec → t.p.toNat ≤ s.n.toNat)
    (hlb : t.lbLen ≤ 126)
    (hexp : s.phase = .enc → 127 * (s.olen.toNat + bs.length) + 128 * t.lbLen ≤ 128 * t.i.toNat) : Inv t := by
  have hw : s.olen.toNat + bs.length < 2 ^ 32 := Nat.lt_of_le_of_lt ha.fits h.dstCap_lt
  have holen : t.olen.toNat = s.olen.toNat + bs.length := by rw [ha.olen, appendAll_olen _ _ hw]
  have hph : t.phase = s.phase := by rw [hframe]
  have hst : t.status = s.status := by rw [hframe]
  have hcfg : t.cfg = s.cfg := by rw [hframe]
  have hsrc : t.src = s.src := by rw [hframe]
  have hn : t.n = s.n := by rw [hframe]
  have hsl : t.srcLen = s.srcLen := by rw [hframe]
  have hdl : t.dstLen = s.dstLen := by rw [hframe]
  constructor
  case config => rw [hcfg]; exact h.config
  case srcWf => rw [hsrc]; exact h.srcWf
  case dstWf => rw [ha.dst]; exact append_dst_wf h.dstWf bs
  case srcInside => rw [hsrc, hcfg]; exact h.srcInside
  case dstInside => rw [ha.dst, hcfg]; exact appendAll_inside h.dstInside ha.fits hw
  case srcLenBound => rw [hsl, hcfg]; exact h.srcLenBound
  case nBound => rw [hn, hcfg]; exact h.nBound
  case iBound => rw [hph, hn]; exact hi
  case pBound => rw [hph, hn]; exact hp
  case olenBound => rw [holen, hcfg]; exact ha.fits
  case lbBound => exact hlb
  case busyPhase => rw [hst, hph]; exact h.busyPhase
  case notBoth => rw [hst]; exact h.notBoth
  case errBound => rw [hst]; exact h.errBound
  case errDone => rw [hst]; exact h.errDone
  case dstLenErr => rw [hst, hdl]; exact h.dstLenErr
  case outputListed =>
    intro _ k hk
    rw [holen] at hk
    rw [ha.dst, appendAll_read _ _ hw]
    split
    · simp
    · exact h.outputListed hrun k (by omega)
  case resultListed => rw [hph]; exact fun hidle => absurd hidle hrun
  case expansion => rw [hph, holen]; exact hexp

/-- A token's effect keeps the invariant (R88, R89). -/
theorem inv_token {s : State} {bs : List Byte} {k : Nat} (h : Inv s) (hrun : s.phase = .dec)
    (hfit : s.olen.toNat + bs.length ≤ s.cfg.dstCap) (hp : s.p.toNat + k ≤ s.n.toNat) :
    Inv ((s.appendAll bs).advanceP k) := by
  have hn := s.n.isLt
  refine inv_appended (bs := bs) h (by simp [hrun]) ⟨rfl, rfl, hfit⟩ ?_ (by simp [hrun]) (fun _ => ?_) ?_
    (by simp [hrun])
  · rw [State.advanceP]
    rw [appendAll_eq _ _ (Nat.lt_of_le_of_lt hfit h.dstCap_lt)]
  · simp only [advanceP_p, appendAll_p]
    rw [word_add_toNat _ _ (by omega)]
    exact hp
  · simpa [State.lbLen] using h.lbBound

end Sys2Proof.Machine
end

