-- ==== Sys2Proof/Laws/PerInstr.lean ====
section
/-! SUPPORT. Statements made of every instruction as syntax, one lemma for each constructor. -/

namespace Sys2Proof.Laws.EncodedSize

/-- A well-formed token's encoding is as long as its first byte tells, at most 128 bytes (R50, R51, R55); a command's
CTRL value has every reserved bit 0 (R60). -/
def Statement (i : Instr) : Prop :=
  i.wellFormed = true →
    match encode i with
    | .stream tok => tok.length = tokenSize (tok.headD 0) ∧ tok.length ≤ 128
    | .ctrl w => w.toNat < 4

theorem lit (payload : List Byte) : Statement (.lit payload) := by
  intro h
  have hl : payload.length ≤ 127 := by simpa [Instr.wellFormed] using h
  have hb : (BitVec.ofNat 8 payload.length : Byte).toNat = payload.length := by
    rw [BitVec.toNat_ofNat]
    omega
  have ht : tagBit (BitVec.ofNat 8 payload.length) = false := by
    rw [tagBit_eq, hb, decide_eq_false]
    omega
  refine ⟨?_, ?_⟩
  · show (serLit payload).length = tokenSize (BitVec.ofNat 8 payload.length)
    rw [tokenSize, ht, litCount_eq, hb, serLit_length]
    simp only [Bool.false_eq_true, if_false]
    omega
  · show (serLit payload).length ≤ 128
    rw [serLit_length]
    omega

theorem bref (distance length : Nat) : Statement (.bref distance length) := by
  intro h
  simp only [Instr.wellFormed, Bool.and_eq_true, decide_eq_true_eq] at h
  obtain ⟨⟨hd, h1⟩, h2⟩ := h
  have hs := serBref_toNat distance length hd h1 h2
  rcases he : serBref distance length with _ | ⟨b0, rest⟩
  · rw [he] at hs
    cases hs
  · rw [he] at hs
    have hb : b0.toNat = 128 + distance / 16 := by simpa using (List.cons.inj hs).1
    have ht : tagBit b0 = true := by
      rw [tagBit_eq, hb, decide_eq_true]
      omega
    have hlen : (b0 :: rest).length = 2 := by rw [← he, serBref_length]
    show (match Code.stream (serBref distance length) with
      | .stream tok => tok.length = tokenSize (tok.headD 0) ∧ tok.length ≤ 128
      | .ctrl w => w.toNat < 4)
    rw [he]
    exact ⟨by rw [hlen, List.headD_cons, tokenSize, ht, if_pos rfl], by rw [hlen]; omega⟩

theorem setMode (m : Mode) : Statement (.setMode m) := by
  intro _
  show (BitVec.ofNat 32 (m.bit.toNat <<< 1)).toNat < 4
  cases m <;> decide

theorem startEncode : Statement .startEncode := by
  intro _
  show (0x1#32).toNat < 4
  decide

theorem startDecode : Statement .startDecode := by
  intro _
  show (0x3#32).toNat < 4
  decide

end Sys2Proof.Laws.EncodedSize
end

