-- ==== Sys2Proof/Laws/Step.lean ====
section
/-! SUPPORT. What one step can do: by agent, by phase, by action, and by token. -/

namespace Sys2Proof.Machine

/-! ## By agent -/

theorem step_engine {s : State} (h : EngineMoves s) : step s = engineTurn (takeTurn s) := by
  simp [step, h.1, h.2, turn]

theorem step_host {s : State} {a : HostAction} {rest : List HostAction} (h : HostMoves s a rest) :
    step s = hostAccess a (hostTook s rest) := by
  obtain ⟨h1, h2, h3⟩ := h
  simp [step, h1, h2, turn, hostTurn, h3, hostTook]

/-- Everything a step can do, by who moves. -/
theorem step_cases (s : State) :
    (configValid s.cfg = false ∧ step s = .refused .badConfiguration) ∨
    (EngineMoves s ∧ step s = engineTurn (takeTurn s)) ∨
    (∃ a rest, HostMoves s a rest ∧ step s = hostAccess a (hostTook s rest)) ∨
    (configValid s.cfg = true ∧ nextTurn s = some .host ∧ s.host = [] ∧ step s = .next (takeTurn s)) ∨
    (configValid s.cfg = true ∧ nextTurn s = none ∧ step s = .next s) := by
  cases hv : configValid s.cfg
  · exact .inl ⟨rfl, by simp [step, hv]⟩
  right
  rcases hn : nextTurn s with _ | _ | _
  · exact .inr (.inr (.inr ⟨rfl, rfl, by simp [step, hv, hn]⟩))
  · exact .inl ⟨⟨hv, hn⟩, step_engine ⟨hv, hn⟩⟩
  · rcases hh : s.host with _ | ⟨a, rest⟩
    · exact .inr (.inr (.inl ⟨rfl, rfl, rfl, by simp [step, hv, hn, turn, hostTurn, hh]⟩))
    · exact .inr (.inl ⟨a, rest, ⟨hv, hn, hh⟩, step_host ⟨hv, hn, hh⟩⟩)

/-- Nobody has anything to do only while idle. -/
theorem idle_of_nextTurn_none {s : State} (h : nextTurn s = none) : s.phase = .idle := by
  unfold nextTurn at h
  split at h
  · cases h
  · by_contra hp
    simp [hp] at h

theorem inv_hostTook {s : State} (h : Inv s) (rest : List HostAction) : Inv (hostTook s rest) :=
  inv_outside h rest s.turns.tail s.reply s.resets s.draws

/-! ## The operation's input -/

theorem input_length (s : State) : s.input.length = s.n.toNat := by simp [State.input]

theorem input_getElem? (s : State) (k : Nat) :
    s.input[k]? = if k < s.n.toNat then some (srcByte s k) else none := by
  simp only [State.input, List.getElem?_map]
  split
  · rename_i h
    simp [List.getElem?_range h]
  · rename_i h
    simp
    omega

@[simp] theorem takeTurn_input (s : State) : (takeTurn s).input = s.input := rfl

/-- The input depends on SRC, `n` and the resets only. -/
theorem input_congr {s t : State} (h1 : t.n = s.n) (h2 : t.src = s.src) (h3 : t.resets = s.resets) :
    t.input = s.input := by
  unfold State.input
  rw [h1]
  apply List.map_congr_left
  intro k _
  simp only [srcByte, h2, h3]

/-- The bytes at the cursor: the byte at `p` and the ones after it (R87). -/
theorem tokenBytes_cons {s : State} (h : s.p.toNat < s.n.toNat) :
    s.tokenBytes = srcByte s s.p.toNat :: s.input.drop (s.p.toNat + 1) := by
  have hl : s.p.toNat < s.input.length := by rw [input_length]; exact h
  rw [State.tokenBytes, List.drop_eq_getElem_cons hl]
  congr 1
  have := input_getElem? s s.p.toNat
  rw [if_pos h, List.getElem?_eq_getElem hl] at this
  exact Option.some.inj this

theorem input_drop_length (s : State) (k : Nat) : (s.input.drop k).length = s.n.toNat - k := by
  rw [List.length_drop, input_length]

/-- `L` bytes of the input from `k` on are the bytes of SRC there. -/
theorem input_drop_take {s : State} {k L : Nat} (h : k + L ≤ s.n.toNat) :
    (s.input.drop k).take L = (List.range L).map fun t => srcByte s (k + t) := by
  apply List.ext_getElem?
  intro t
  simp only [List.getElem?_take, List.getElem?_drop, input_getElem?, List.getElem?_map]
  by_cases ht : t < L
  · simp [ht, show k + t < s.n.toNat by omega]
  · simp [ht]

/-! ## By token -/

/-- Everything a LIT can do (R88). -/
theorem execLit_cases (payload : List Byte) (s : State) :
    (s.n.toNat < s.p.toNat + 1 + payload.length ∧ execLit payload s = .next (raise .truncatedLiteral s)) ∨
    (s.p.toNat + 1 + payload.length ≤ s.n.toNat ∧ s.cfg.dstCap < s.olen.toNat + payload.length ∧
      execLit payload s = .next (raise .outputOverflow s)) ∨
    (s.p.toNat + 1 + payload.length ≤ s.n.toNat ∧ s.olen.toNat + payload.length ≤ s.cfg.dstCap ∧
      execLit payload s = .next ((s.appendAll payload).advanceP (1 + payload.length))) := by
  unfold execLit
  split
  · rename_i h
    exact .inl ⟨h, rfl⟩
  · split
    · rename_i h1 h2
      exact .inr (.inl ⟨by omega, h2, rfl⟩)
    · rename_i h1 h2
      exact .inr (.inr ⟨by omega, by omega, rfl⟩)

/-- Everything a BREF can do (R89). -/
theorem execBref_cases (d l : Nat) (s : State) (hcap : s.cfg.dstCap < 2 ^ 32) :
    (s.n.toNat ≤ s.p.toNat + 1 ∧ execBref d l s = .next (raise .malformedStream s)) ∨
    (s.p.toNat + 1 < s.n.toNat ∧ (s.olen.toNat < d ∨ d = 0) ∧
      execBref d l s = .next (raise .invalidBackReference s)) ∨
    (s.p.toNat + 1 < s.n.toNat ∧ d ≤ s.olen.toNat ∧ d ≠ 0 ∧ s.cfg.dstCap < s.olen.toNat + l ∧
      execBref d l s = .next (raise .outputOverflow s)) ∨
    (s.p.toNat + 1 < s.n.toNat ∧ d ≤ s.olen.toNat ∧ d ≠ 0 ∧ s.olen.toNat + l ≤ s.cfg.dstCap ∧
      execBref d l s = .next ((s.appendAll (copiedBytes s d l)).advanceP 2)) := by
  unfold execBref
  split
  · rename_i h
    exact .inl ⟨h, rfl⟩
  · split
    · rename_i h1 h2
      exact .inr (.inl ⟨by omega, .inl h2, rfl⟩)
    · split
      · rename_i h1 h2 h3
        exact .inr (.inl ⟨by omega, .inr h3, rfl⟩)
      · split
        · rename_i h1 h2 h3 h4
          exact .inr (.inr (.inl ⟨by omega, by omega, h3, h4, rfl⟩))
        · rename_i h1 h2 h3 h4
          refine .inr (.inr (.inr ⟨by omega, by omega, h3, by omega, ?_⟩))
          rw [copyBack_eq _ _ _ (by omega) (by omega) (by omega)]

/-- Everything the decoder's step can do (R87): the end, a whole token, a token with bytes missing, or a cursor beyond
the input. -/
theorem decStep_cases (s : State) :
    (s.p = s.n ∧ decStep s = .next (complete s)) ∨
    (s.p ≠ s.n ∧ ∃ i rest, decodeToken s.tokenBytes = .ok (i, rest) ∧ decStep s = exec i s) ∨
    (s.p ≠ s.n ∧ decodeToken s.tokenBytes = .error .truncatedLiteral ∧
      decStep s = .next (raise .truncatedLiteral s)) ∨
    (s.p ≠ s.n ∧ decodeToken s.tokenBytes = .error .missingSecondByte ∧
      decStep s = .next (raise .malformedStream s)) ∨
    (s.p ≠ s.n ∧ decodeToken s.tokenBytes = .error .emptyStream ∧ decStep s = .fault .cursorPastEnd) := by
  unfold decStep
  split
  · rename_i h
    exact .inl ⟨h, rfl⟩
  · rename_i h
    right
    split <;> simp_all

/-- A stream that has a byte is never an empty one to the decoder. -/
theorem decodeToken_ne_empty (b0 : Byte) (rest : List Byte) :
    decodeToken (b0 :: rest) ≠ .error .emptyStream := by
  simp only [decodeToken]
  split
  · split <;> simp
  · split <;> simp

/-- A token read from a stream is a LIT or a BREF. -/
theorem decodeToken_ok {bs rest : List Byte} {i : Instr} (h : decodeToken bs = .ok (i, rest)) :
    (∃ payload, i = .lit payload ∧ payload.length ≤ 127) ∨ ∃ d l, i = .bref d l ∧ d ≤ 2047 ∧ 1 ≤ l ∧ l ≤ 16 := by
  rcases bs with _ | ⟨b0, bs⟩
  · cases h
  · simp only [decodeToken] at h
    split at h
    · rcases bs with _ | ⟨b1, bs⟩
      · cases h
      · right
        simp only [Except.ok.injEq, Prod.mk.injEq] at h
        refine ⟨_, _, h.1.symm, ?_, ?_, ?_⟩
        · have h0 := b0.isLt
          have h1 := b1.isLt
          rw [brefDistance_eq]
          omega
        · rw [brefLength_eq]
          omega
        · rw [brefLength_eq]
          omega
    · split at h
      · cases h
      · left
        simp only [Except.ok.injEq, Prod.mk.injEq] at h
        refine ⟨_, h.1.symm, ?_⟩
        have := litCount_le b0
        rw [List.length_take]
        omega

/-! ## By command and by host action -/

/-- Everything a CTRL write can do (R103 to R106), with the bits that select the command (R59). -/
theorem execCtrl_cases (w : Word) (s : State) :
    (s.status.busy = true ∧ exec (decodeCtrl w) s = .next s) ∨
    (s.status.busy = false ∧ w &&& 0x1#32 = 0x0#32 ∧ ∃ m, exec (decodeCtrl w) s = .next { s with mode := m }) ∨
    (s.status.busy = false ∧ w &&& 0x3#32 = 0x1#32 ∧
      exec (decodeCtrl w) s = .next { startOperation .encode .enc s with i := 0, lb := s.lb.clear }) ∨
    (s.status.busy = false ∧ w &&& 0x3#32 = 0x3#32 ∧
      exec (decodeCtrl w) s = .next { startOperation .decode .dec s with p := 0 }) := by
  have hbit : ∀ k, k ≠ 0 → k ≠ 1 → (3#32).getLsbD k = false := by
    intro k h0 h1
    rw [BitVec.getLsbD_ofNat]
    have : Nat.testBit 3 k = false := Nat.testBit_lt_two_pow (Nat.lt_of_lt_of_le (by norm_num : 3 < 2 ^ 2)
      (Nat.pow_le_pow_right (by norm_num) (by omega)))
    simp [this]
  have hone : ∀ k, k ≠ 0 → (1#32).getLsbD k = false := by
    intro k h0
    simp [h0]
  have hlow : ∀ b : Bool, w.getLsbD 0 = b → w &&& 0x1#32 = (if b then 0x1#32 else 0x0#32) := by
    intro b hb
    apply BitVec.eq_of_getLsbD_eq
    intro k _
    rw [BitVec.getLsbD_and]
    by_cases hk : k = 0
    · subst hk
      rw [hb]
      cases b <;> rfl
    · rw [hone k hk]
      cases b <;> simp [hk]
  have hboth : ∀ b : Bool, w.getLsbD 0 = true → w.getLsbD 1 = b → w &&& 0x3#32 = (if b then 0x3#32 else 0x1#32) := by
    intro b h0 h1
    apply BitVec.eq_of_getLsbD_eq
    intro k _
    rw [BitVec.getLsbD_and]
    by_cases hk : k = 0
    · subst hk
      rw [h0]
      cases b <;> rfl
    · by_cases hk' : k = 1
      · subst hk'
        rw [h1]
        cases b <;> rfl
      · rw [hbit k hk hk']
        cases b
        · simp [hone k hk]
        · simp only [if_true, hbit k hk hk', Bool.and_false]
  cases hb : s.status.busy
  · right
    cases h0 : w.getLsbD 0
    · left
      refine ⟨rfl, hlow false h0, ?_⟩
      cases h1 : w.getLsbD 1
      · exact ⟨.encode, by simp only [decodeCtrl, h0, h1, exec, execSetMode, hb, Bool.false_eq_true, if_false]⟩
      · exact ⟨.decode, by simp only [decodeCtrl, h0, h1, exec, execSetMode, hb, Bool.false_eq_true, if_false]⟩
    · right
      cases h1 : w.getLsbD 1
      · left
        refine ⟨rfl, hboth false h0 h1, ?_⟩
        simp only [decodeCtrl, h0, h1, exec, execStartEncode, hb, Bool.false_eq_true, if_false]
      · right
        refine ⟨rfl, hboth true h0 h1, ?_⟩
        simp only [decodeCtrl, h0, h1, exec, execStartDecode, hb, Bool.false_eq_true, if_false]
  · left
    refine ⟨rfl, ?_⟩
    cases h0 : w.getLsbD 0 <;> cases h1 : w.getLsbD 1 <;>
      simp only [decodeCtrl, h0, h1, exec, execSetMode, execStartEncode, execStartDecode, hb, if_true]

/-- Everything a register write can do (R109). -/
theorem writeRegister_cases (r : Nat) (w : Word) (s : State) :
    (r = 0 ∧ writeRegister r w s = exec (decodeCtrl w) s) ∨
    (r = 2 ∧ writeRegister r w s = .next (writeSrcLen w s)) ∨
    (r ≠ 0 ∧ r ≠ 2 ∧ writeRegister r w s = .next s) := by
  unfold writeRegister
  split
  · exact .inl ⟨rfl, rfl⟩
  · exact .inr (.inl ⟨rfl, rfl⟩)
  · rename_i h0 h2
    exact .inr (.inr ⟨h0, h2, rfl⟩)

/-- Everything a host action can do: refused outside the buffers (R31), else a next state. -/
theorem hostAccess_cases (a : HostAction) (s : State) :
    (∃ k, (a = .srcRead k ∨ ∃ b, a = .srcWrite k b) ∧ s.cfg.srcCap ≤ k ∧ hostAccess a s = .refused .srcIndexOutside) ∨
    (∃ k, (a = .dstRead k ∨ ∃ b, a = .dstWrite k b) ∧ s.cfg.dstCap ≤ k ∧ hostAccess a s = .refused .dstIndexOutside) ∨
    (∃ r, ((∃ k, a = .regRead k) ∨ (∃ k, a = .srcRead k) ∨ ∃ k, a = .dstRead k) ∧
      hostAccess a s = .next (answer r s)) ∨
    (∃ w, a = .regWrite 0 w ∧ hostAccess a s = exec (decodeCtrl w) s) ∨
    (∃ w, a = .regWrite 2 w ∧ hostAccess a s = .next (writeSrcLen w s)) ∨
    (∃ k w, a = .regWrite k w ∧ k ≠ 0 ∧ k ≠ 2 ∧ hostAccess a s = .next s) ∨
    (∃ k b, a = .srcWrite k b ∧ k < s.cfg.srcCap ∧ hostAccess a s = .next (writeSrc k b s)) ∨
    (∃ k b, a = .dstWrite k b ∧ k < s.cfg.dstCap ∧ hostAccess a s = .next (writeDst k b s)) ∨
    (a = .reset ∧ hostAccess a s = .next (resetDcb s)) := by
  cases a with
  | regRead r => exact .inr (.inr (.inl ⟨_, .inl ⟨r, rfl⟩, rfl⟩))
  | regWrite r w =>
    rcases writeRegister_cases r w s with ⟨rfl, h⟩ | ⟨rfl, h⟩ | ⟨h0, h2, h⟩
    · exact .inr (.inr (.inr (.inl ⟨w, rfl, h⟩)))
    · exact .inr (.inr (.inr (.inr (.inl ⟨w, rfl, h⟩))))
    · exact .inr (.inr (.inr (.inr (.inr (.inl ⟨r, w, rfl, h0, h2, h⟩)))))
  | srcRead k =>
    by_cases hk : k < s.cfg.srcCap
    · exact .inr (.inr (.inl ⟨_, .inr (.inl ⟨k, rfl⟩), by rw [hostAccess, if_pos hk]⟩))
    · exact .inl ⟨k, .inl rfl, by omega, by rw [hostAccess, if_neg hk]⟩
  | srcWrite k b =>
    by_cases hk : k < s.cfg.srcCap
    · exact .inr (.inr (.inr (.inr (.inr (.inr (.inl ⟨k, b, rfl, hk, by rw [hostAccess, if_pos hk]⟩))))))
    · exact .inl ⟨k, .inr ⟨b, rfl⟩, by omega, by rw [hostAccess, if_neg hk]⟩
  | dstRead k =>
    by_cases hk : k < s.cfg.dstCap
    · exact .inr (.inr (.inl ⟨_, .inr (.inr ⟨k, rfl⟩), by rw [hostAccess, if_pos hk]⟩))
    · exact .inr (.inl ⟨k, .inl rfl, by omega, by rw [hostAccess, if_neg hk]⟩)
  | dstWrite k b =>
    by_cases hk : k < s.cfg.dstCap
    · exact .inr (.inr (.inr (.inr (.inr (.inr (.inr (.inl ⟨k, b, rfl, hk, by rw [hostAccess, if_pos hk]⟩)))))))
    · exact .inr (.inl ⟨k, .inr ⟨b, rfl⟩, by omega, by rw [hostAccess, if_neg hk]⟩)
  | reset => exact .inr (.inr (.inr (.inr (.inr (.inr (.inr (.inr ⟨rfl, rfl⟩)))))))

/-! ## The encoder's step, where the invariant gives the room -/

/-- The room an encode has while it runs (R84, R8). -/
theorem enc_room {s : State} (h : Inv s) (he : s.phase = .enc) :
    127 * s.olen.toNat + 128 * s.lbLen ≤ 128 * s.i.toNat ∧ s.i.toNat ≤ s.n.toNat ∧
    s.n.toNat + (s.n.toNat + 126) / 127 ≤ s.cfg.dstCap := by
  have h1 := h.expansion he
  have h2 := h.iBound he
  have h3 := h.nBound
  have h4 := ((configValid_iff _).1 h.config).2.2
  exact ⟨h1, h2, by omega⟩

/-- Everything an encoder step can do in a state the invariant admits (R73, R80): it finishes, emits a match, or takes a
literal, and it never raises an error. -/
theorem encStep_cases {s : State} (h : Inv s) (he : s.phase = .enc) :
    (s.i = s.n ∧ s.olen.toNat + (litIfAny s.lb.seq).length ≤ s.cfg.dstCap ∧
      encStep s = .next (complete { s.appendAll (litIfAny s.lb.seq) with lb := s.lb.clear })) ∨
    (∃ d l, s.i.toNat < s.n.toNat ∧ matchFind s.cfg.encOverlapSource s.input s.i.toNat = some (d, l) ∧
      s.i.toNat + l ≤ s.n.toNat ∧
      127 * (s.olen.toNat + (litIfAny s.lb.seq ++ serBref d l).length) ≤ 128 * (s.i.toNat + l) ∧
      s.olen.toNat + (litIfAny s.lb.seq ++ serBref d l).length ≤ s.cfg.dstCap ∧
      encStep s =
        .next (({ s.appendAll (litIfAny s.lb.seq ++ serBref d l) with lb := s.lb.clear } : State).advanceI l)) ∨
    (s.i.toNat < s.n.toNat ∧ matchFind s.cfg.encOverlapSource s.input s.i.toNat = none ∧ s.lbLen + 1 ≤ 126 ∧
      encStep s = .next (takeLiteral s)) ∨
    (s.i.toNat < s.n.toNat ∧ matchFind s.cfg.encOverlapSource s.input s.i.toNat = none ∧ s.lbLen = 126 ∧
      s.olen.toNat + 128 ≤ s.cfg.dstCap ∧
      encStep s =
        .next { (takeLiteral s).appendAll (serLit (s.lb.seq ++ [srcByte s s.i.toNat])) with
                lb := (takeLiteral s).lb.clear }) := by
  obtain ⟨h1, h2, h3⟩ := enc_room h he
  have hcap := h.dstCap_lt
  have hlb := h.lbBound
  have hpl : (litIfAny s.lb.seq).length = if s.lbLen = 0 then 0 else s.lbLen + 1 := by
    rw [litIfAny_length, LitBuf.seq_length]
    simp only [seq_eq_nil_iff]
    rfl
  unfold encStep
  by_cases hin : s.i = s.n
  · left
    have hfit : s.olen.toNat + (litIfAny s.lb.seq).length ≤ s.cfg.dstCap := by
      rw [hpl]
      rw [hin] at h1
      split <;> omega
    exact ⟨hin, hfit, by rw [if_pos hin, encFinish_fits hfit]; rfl⟩
  · right
    have hlt : s.i.toNat < s.n.toNat := by
      have : s.i.toNat ≠ s.n.toNat := fun hc => hin (BitVec.eq_of_toNat_eq hc)
      omega
    rw [if_neg hin, if_neg (by omega)]
    rcases hm : matchFind s.cfg.encOverlapSource s.input s.i.toNat with _ | ⟨d, l⟩
    · right
      by_cases hroom : s.lbLen + 1 ≤ 126
      · left
        exact ⟨hlt, rfl, hroom, by simp only [encLiteral_room hroom, settle]⟩
      · right
        have hfull : s.lbLen = 126 := by omega
        have hfit : s.olen.toNat + 128 ≤ s.cfg.dstCap := by omega
        exact ⟨hlt, rfl, hfull, hfit, by simp only [encLiteral_full hfull hfit, settle]⟩
    · left
      obtain ⟨m1, m2, m3, _⟩ := matchFind_some hm
      rw [input_length] at m3
      have hexp : 127 * (s.olen.toNat + (litIfAny s.lb.seq ++ serBref d l).length) ≤ 128 * (s.i.toNat + l) := by
        rw [List.length_append, serBref_length, hpl]
        split <;> omega
      have hfit : s.olen.toNat + (litIfAny s.lb.seq ++ serBref d l).length ≤ s.cfg.dstCap := by omega
      exact ⟨d, l, hlt, rfl, m3, hexp, hfit, by simp only [encMatch_fits hcap hfit, settle]⟩

end Sys2Proof.Machine
end

