-- ==== Sys2Proof/Laws/Reference.lean ====
section
/-! SUPPORT. The loops of ENCODE (R79) and DECODE (R100): one equation for each kind of token, enough rounds are enough,
and the copy loop in R91's closed form. -/

namespace Sys2Proof.Machine

/-! ## The operation's input as the loops read it -/

theorem input_getD {s : State} {k : Nat} (h : k < s.n.toNat) : s.input.getD k 0 = srcByte s k := by
  have := input_getElem? s k
  rw [if_pos h] at this
  rw [List.getD, this]
  rfl

theorem input_slice {s : State} {k L : Nat} (h : k + L ≤ s.n.toNat) :
    slice s.input k (k + L) = (List.range L).map fun t => srcByte s (k + t) := by
  rw [slice, Nat.add_sub_cancel_left, input_drop_take h]

/-! ## DECODE -/

/-- One round on a LIT. -/
theorem decodeFrom_lit {cap fuel p : Nat} {C out : List Byte} {b0 : Byte} (hp : p < C.length) (hb : C.getD p 0 = b0)
    (ht : tagBit b0 = false) :
    decodeFrom cap C (fuel + 1) p out =
      if C.length < p + 1 + litCount b0 then .error .truncatedLiteral
      else if cap < out.length + litCount b0 then .error .outputOverflow
      else decodeFrom cap C fuel (p + 1 + litCount b0) (out ++ slice C (p + 1) (p + 1 + litCount b0)) := by
  rw [decodeFrom, if_pos hp]
  simp only [hb, ht, if_true]

/-- One round on a BREF. -/
theorem decodeFrom_bref {cap fuel p : Nat} {C out : List Byte} {b0 b1 : Byte} (hp : p < C.length)
    (hb : C.getD p 0 = b0) (hb' : C.getD (p + 1) 0 = b1) (ht : tagBit b0 = true) :
    decodeFrom cap C (fuel + 1) p out =
      if C.length ≤ p + 1 then .error .malformedStream
      else if out.length < brefDistance b0 b1 ∨ brefDistance b0 b1 = 0 then .error .invalidBackReference
      else if cap < out.length + brefLength b1 then .error .outputOverflow
      else decodeFrom cap C fuel (p + 2) (copyOut (brefDistance b0 b1) (brefLength b1) out) := by
  rw [decodeFrom, if_pos hp]
  simp only [hb, hb', ht, Bool.true_eq_false, if_false]

/-- At the end of the stream the loop answers its output. -/
theorem decodeFrom_end {cap : Nat} {C out : List Byte} (fuel : Nat) : decodeFrom cap C fuel C.length out = .ok out := by
  cases fuel <;> simp [decodeFrom]

theorem decodeFrom_succ (cap : Nat) (C : List Byte) (fuel p : Nat) (out : List Byte) (h : C.length ≤ p + fuel) :
    decodeFrom cap C (fuel + 1) p out = decodeFrom cap C fuel p out := by
  induction fuel generalizing p out with
  | zero =>
    rw [decodeFrom.eq_def cap C (0 + 1)]
    simp only
    rw [if_neg (by omega)]
    rfl
  | succ f ih =>
    by_cases hp : p < C.length
    · cases ht : tagBit (C.getD p 0)
      · rw [decodeFrom_lit hp rfl ht, decodeFrom_lit hp rfl ht, ih _ _ (by omega)]
      · rw [decodeFrom_bref hp rfl rfl ht, decodeFrom_bref hp rfl rfl ht, ih _ _ (by omega)]
    · rw [decodeFrom, if_neg hp, decodeFrom, if_neg hp]

/-- As many rounds as there are bytes left are enough (R99). -/
theorem decodeFrom_enough (cap : Nat) (C : List Byte) (fuel p : Nat) (out : List Byte) (h : C.length ≤ p + fuel) :
    decodeFrom cap C fuel p out = decodeFrom cap C (C.length - p) p out := by
  induction fuel with
  | zero => rw [show C.length - p = 0 by omega]
  | succ f ih =>
    by_cases h' : C.length ≤ p + f
    · rw [decodeFrom_succ _ _ _ _ _ h', ih h']
    · rw [show C.length - p = f + 1 by omega]

@[simp] theorem copyOut_length (d l : Nat) (out : List Byte) : (copyOut d l out).length = out.length + l := by
  induction l generalizing out with
  | zero => rfl
  | succ l ih =>
    rw [copyOut, ih]
    simp only [List.length_append, List.length_singleton]
    omega

/-- The copy loop in R91's closed form. -/
theorem copyOut_eq (d l : Nat) (out : List Byte) (h1 : 1 ≤ d) (h2 : d ≤ out.length) :
    copyOut d l out = out ++ (List.range l).map fun k => out.getD (out.length - d + k % d) 0 := by
  induction l generalizing out with
  | zero => simp [copyOut]
  | succ l ih =>
    rw [copyOut, ih _ (by simp; omega), List.range_succ_eq_map, List.map_cons, List.map_map, List.append_assoc]
    congr 1
    rw [List.singleton_append]
    congr 1
    apply List.map_congr_left
    intro k _
    have hk : k % d < d := Nat.mod_lt _ h1
    simp only [Function.comp, List.length_append, List.length_singleton, Nat.succ_eq_add_one]
    by_cases hlt : k % d + 1 < d
    · have hmod : (k + 1) % d = k % d + 1 := by
        rw [Nat.add_mod, Nat.mod_eq_of_lt (a := 1) (by omega), Nat.mod_eq_of_lt hlt]
      rw [hmod, List.getD, List.getD, List.getElem?_append_left (by omega)]
      congr 2
      omega
    · have hmod : (k + 1) % d = 0 := by
        rw [← Nat.div_add_mod k d, show d * (k / d) + k % d + 1 = d * (k / d) + d by omega, ← Nat.mul_succ]
        exact Nat.mul_mod_right _ _
      rw [hmod, List.getD, List.getD, List.getElem?_append_right (by omega)]
      simp [show out.length + 1 - d + k % d - out.length = 0 by omega]

/-! ## ENCODE -/

theorem encodeFrom_succ (overlap : Bool) (S : List Byte) (fuel i : Nat) (lb : List Byte) (h : S.length ≤ i + fuel) :
    encodeFrom overlap S (fuel + 1) i lb = encodeFrom overlap S fuel i lb := by
  induction fuel generalizing i lb with
  | zero =>
    rw [encodeFrom.eq_def overlap S (0 + 1)]
    simp only
    rw [if_neg (by omega)]
    rfl
  | succ f ih =>
    rw [encodeFrom.eq_def overlap S (f + 1 + 1), encodeFrom.eq_def overlap S (f + 1)]
    simp only
    split
    · split
      · rename_i hm
        have := (matchFind_some hm).1
        rw [ih _ _ (by omega)]
      · rw [ih _ _ (by omega), ih _ _ (by omega)]
    · rfl

/-- As many rounds as there are bytes left are enough (R85). -/
theorem encodeFrom_enough (overlap : Bool) (S : List Byte) (fuel i : Nat) (lb : List Byte) (h : S.length ≤ i + fuel) :
    encodeFrom overlap S fuel i lb = encodeFrom overlap S (S.length - i) i lb := by
  induction fuel with
  | zero => rw [show S.length - i = 0 by omega]
  | succ f ih =>
    by_cases h' : S.length ≤ i + f
    · rw [encodeFrom_succ _ _ _ _ _ h', ih h']
    · rw [show S.length - i = f + 1 by omega]

end Sys2Proof.Machine
end

