-- ==== Sys2Proof/Tests/Slice0.lean ====
section
/-! SUPPORT. Small tests, with expected results from the spec's worked encodings and vectors, and a witness for the
hypotheses of every statement of Certificates/Slice0/Obligations.lean that has some. -/

namespace Sys2Proof.Tests

open Sys2Proof Sys2Proof.Machine

-- One test at a time: many kernel evaluations waiting at once would each hold a thread's stack.
set_option Elab.async false

/-! ## States to test on -/

/-- An idle DCB in the configuration of the vectors, with input `S` loaded and the host's actions `h` to come. -/
def loaded (S : List Byte) (h : List HostAction) : State :=
  { State.reset with src := Memory.writeAll [] 0 S, srcLen := BitVec.ofNat 32 S.length, host := h }

/-- A running decode of the stream `C` at cursor `p`, with the output `out` so far. -/
def decoding (C : List Byte) (p : Nat) (out : List Byte) : State :=
  { loaded C [] with
    phase := .dec, mode := .decode, status := statusStarted, n := BitVec.ofNat 32 C.length, p := BitVec.ofNat 32 p
    olen := BitVec.ofNat 32 out.length, dst := Memory.writeAll [] 0 out }

/-- A running encode of `S` at cursor `i`, with the pending literals `lits` and the output `out` so far. -/
def encoding (S : List Byte) (i : Nat) (lits out : List Byte) : State :=
  { loaded S [] with
    phase := .enc, status := statusStarted, n := BitVec.ofNat 32 S.length, i := BitVec.ofNat 32 i
    lb := lits.foldl LitBuf.push State.reset.lb
    olen := BitVec.ofNat 32 out.length, dst := Memory.writeAll [] 0 out }

/-- `s` with capacities of 4 and 5 bytes, the least DST_CAP that R8 allows for that SRC_CAP. -/
def small (s : State) : State := { s with cfg := { srcCap := 4, dstCap := 5, encOverlapSource := false } }

/-- `test` holds of the next state of `o`. -/
def holds (o : Host.Outcome State Fault Refusal) (test : State → Bool) : Bool :=
  match o with
  | .next t => test t
  | .fault _ => false
  | .refused _ => false

theorem next_of_holds {o : Host.Outcome State Fault Refusal} {test : State → Bool} (h : holds o test = true) :
    ∃ t, o = .next t ∧ test t = true := by
  cases o with
  | next t => exact ⟨t, rfl, h⟩
  | fault _ => cases h
  | refused _ => cases h

/-- `s` with the host's action `a` next, whatever the phase. -/
def hostNext (a : HostAction) (s : State) : State := { s with host := [a], turns := [.host] }

/-! ## WellFormed refuses ill-formed terms (R50, R51) -/

theorem test_wellFormed_lit_128 : (Instr.lit (List.replicate 128 0)).wellFormed = false := by decide +kernel
theorem test_wellFormed_bref_distance_2048 : (Instr.bref 2048 3).wellFormed = false := by decide
theorem test_wellFormed_bref_length_0 : (Instr.bref 1 0).wellFormed = false := by decide
theorem test_wellFormed_bref_length_17 : (Instr.bref 1 17).wellFormed = false := by decide

/-! ## Decoding words written out from 30_encoding.md, section 8 and R58 to R60 -/

/-- `LIT "AB"` is `02 41 42`. -/
theorem test_decode_lit : decodeToken [0b00000010, 0x41, 0x42] = .ok (.lit [0x41, 0x42], []) := by decide

/-- `BREF 300, 5` is `92 C4`; the byte after it is the next token's. -/
theorem test_decode_bref : decodeToken [0b10010010, 0b11000100, 0x00] = .ok (.bref 300 5, [0x00]) := by decide

/-- `BREF 1, 9` is `80 18`. -/
theorem test_decode_bref_short : decodeToken [0b10000000, 0b00011000] = .ok (.bref 1 9, []) := by decide

/-- `LIT0` is `00`. -/
theorem test_decode_lit0 : decodeToken [0x00, 0x41] = .ok (.lit0, [0x41]) := by decide

/-- Missing bytes are told apart (R92, R93). -/
theorem test_decode_missing :
    decodeToken [0x02, 0x41] = .error .truncatedLiteral ∧ decodeToken [0x80] = .error .missingSecondByte := by decide

/-- `SET_MODE decode` is `w = 2` (R60); bits 31:2 are ignored (R59). -/
theorem test_decode_setMode : decodeCtrl 0x2 = .setMode .decode ∧ decodeCtrl 0xFFFFFFFC = .setMode .encode := by decide

theorem test_decode_startEncode : decodeCtrl 0x1 = .startEncode ∧ decodeCtrl 0xFFFFFFFD = .startEncode := by decide

theorem test_decode_startDecode : decodeCtrl 0x3 = .startDecode ∧ decodeCtrl 0x80000003 = .startDecode := by decide

/-- The opcode table's words: LIT 8 bits, BREF 16 bits with byte 0 in bits 15:8, commands 32 bits. -/
theorem test_tableWords :
    decodeTableWord 8 0b00000010 = some (.lit [0, 0]) ∧
    decodeTableWord 16 0b1001001011000100 = some (.bref 300 5) ∧
    decodeTableWord 32 0b10 = some (.setMode .decode) ∧
    decodeTableWord 32 0b01 = some .startEncode ∧ decodeTableWord 32 0b11 = some .startDecode := by decide +kernel

/-! ## One step after reset with the table's word placed -/

/-- `LIT [0, 0]` is the whole stream: two bytes of output, and the decode goes on (R88). A BREF as the first token is an
invalid back-reference (R94). -/
theorem test_fetch_tokens :
    holds (step (State.reset.withFetchWord 8 0x02))
      (fun t => t.phase = .dec ∧ t.p = 3 ∧ t.dst = [(0, 0), (1, 0)]) ∧
    holds (step (State.reset.withFetchWord 16 0x92C4)) (fun t => t.phase = .idle ∧ t.status.err = 3) := by
  decide +kernel

theorem test_fetch_commands :
    holds (step (State.reset.withFetchWord 32 0x2)) (fun t => t.mode = .decode ∧ t.phase = .idle) ∧
    holds (step (State.reset.withFetchWord 32 0x1)) (fun t => t.phase = .enc) ∧
    holds (step (State.reset.withFetchWord 32 0x3)) (fun t => t.phase = .dec) := by decide +kernel

/-! ## One step of each instruction -/

/-- R88's example: `02 41 42` appends `41 42` and leaves `p = 3`. -/
theorem test_step_lit :
    holds (step (decoding [0x02, 0x41, 0x42] 0 [])) (fun t => t.p = 3 ∧ t.dst = [(0, 0x41), (1, 0x42)]) := by
  decide +kernel

/-- R89's example: `BREF 1, 9` after `"A"` gives ten `A` (R91). -/
theorem test_step_bref_overlap :
    holds (step (decoding [0x01, 0x41, 0x80, 0x18] 2 [0x41]))
      (fun t => t.p = 4 ∧ t.olen = 10 ∧ t.dst = (List.range 10).map fun k => (k, 0x41)) := by decide +kernel

/-- R103's example: an idle DCB whose host writes CTRL `0x2` then reads CTRL `0x2`, and no operation starts. -/
theorem test_step_setMode :
    holds (step (loaded [] [.regWrite 0 0x2])) (fun t => readRegister t 0 = 0x2 ∧ t.phase = .idle) := by decide +kernel

/-- R104: MODE 0, `n = SRC_LEN`, STATUS reads BUSY alone. -/
theorem test_step_startEncode :
    holds (step (loaded [0x41, 0x42, 0x43] [.regWrite 0 0x1]))
      (fun t => readRegister t 0 = 0x0 ∧ readRegister t 1 = 0x1 ∧ t.n = 3 ∧ t.phase = .enc) := by decide +kernel

/-- R105: MODE 1, `n = SRC_LEN`, STATUS reads BUSY alone. -/
theorem test_step_startDecode :
    holds (step (loaded [0x00] [.regWrite 0 0x3]))
      (fun t => readRegister t 0 = 0x2 ∧ readRegister t 1 = 0x1 ∧ t.n = 1 ∧ t.phase = .dec) := by decide +kernel

/-! ## One step of the encoder, and the errors -/

/-- R73's example: `"A"×10` at `i = 3` with `LB = "AAA"` appends `03 41 41 41 80 32` and sets `i = 6`, `LB = []`. -/
theorem test_step_encMatch :
    holds (step (encoding (List.replicate 10 0x41) 3 [0x41, 0x41, 0x41] []))
      (fun t => t.i = 6 ∧ t.lb.seq = [] ∧
        t.dst = [(0, 0x03), (1, 0x41), (2, 0x41), (3, 0x41), (4, 0x80), (5, 0x32)]) := by decide +kernel

/-- R65's example: at `i = 6` of `"A"×10` the match is distance 4, length 4; under I1's other reading (L1-D) the match at
`i = 1` is distance 1, length 9. -/
theorem test_matchFind :
    matchFind false (List.replicate 10 0x41) 6 = some (4, 4) ∧
    matchFind true (List.replicate 10 0x41) 1 = some (1, 9) := by decide +kernel

/-- Scenario A (L1-A): the empty input completes at the first step with STATUS = 2 and DST_LEN = 0. -/
theorem test_step_encFinish_empty :
    holds (step (encoding [] 0 [] [])) (fun t => readRegister t 1 = 0x2 ∧ readRegister t 3 = 0x0) := by decide +kernel

/-- R95: distance 0 is an invalid back-reference; STATUS is then DONE with ERR = 3, that is 0x0E. -/
theorem test_step_bref_distance_0 :
    holds (step (decoding [0x01, 0x41, 0x80, 0x02] 2 [0x41]))
      (fun t => readRegister t 1 = 0x0E ∧ readRegister t 3 = 0x0 ∧ t.dst = []) := by decide +kernel

/-- The reference functions on Scenario E (L1-E), under both readings. -/
theorem test_encodeBytes_abc :
    let S := (List.replicate 10 [0x41, 0x42, 0x43]).flatten
    encodeBytes false S = [0x03, 0x41, 0x42, 0x43, 0x80, 0x32, 0x80, 0x65, 0x80, 0xCB, 0x80, 0x65] ∧
    encodeBytes true S = [0x03, 0x41, 0x42, 0x43, 0x80, 0x3F, 0x80, 0x3A] := by decide +kernel

/-! ## States that satisfy the invariant -/

theorem inv_loaded : Inv (loaded [0x41, 0x42, 0x43] [.regWrite 0 0x1]) := by constructor <;> decide +kernel
theorem inv_loaded_decode : Inv (loaded [0x01, 0x41, 0x80, 0x18] [.regWrite 0 0x3, .regRead 1]) := by
  constructor <;> decide +kernel
theorem inv_decoding : Inv (decoding [0x01, 0x41, 0x80, 0x18] 2 [0x41]) := by constructor <;> decide +kernel
theorem inv_decoding_end : Inv (decoding [0x01, 0x41] 2 [0x41]) := by constructor <;> decide +kernel
theorem inv_encoding_match : Inv (encoding (List.replicate 10 0x41) 3 [0x41, 0x41, 0x41] []) := by
  constructor <;> decide +kernel
theorem inv_encoding_literal : Inv (encoding [0x41, 0x42, 0x43] 1 [0x41] []) := by constructor <;> decide +kernel
theorem inv_encoding_full : Inv (encoding (List.replicate 127 0x41) 126 (List.replicate 126 0x41) []) := by
  constructor <;> decide +kernel
theorem inv_encoding_end : Inv (encoding [0x41, 0x42] 2 [0x41, 0x42] []) := by constructor <;> decide +kernel
theorem inv_encoding_empty : Inv (encoding [] 0 [] []) := by constructor <;> decide +kernel

/-! ## Witnesses: encoding -/

theorem witness_DecodeEncodeAgree :
    (Instr.lit []).wellFormed = true ∧ (Instr.lit (List.replicate 127 0x41)).wellFormed = true ∧
    (Instr.bref 0 1).wellFormed = true ∧ (Instr.bref 2047 16).wellFormed = true ∧
    (Instr.setMode .decode).wellFormed = true := by decide +kernel

theorem witness_DecodedTokenReencodes :
    decodeToken (0x7F :: List.replicate 127 0x41) = .ok (.lit (List.replicate 127 0x41), []) ∧
    decodeToken [0x80, 0x00] = .ok (.bref 0 1, []) := by decide +kernel

theorem witness_EveryByteBeginsAToken :
    (0x7F : Byte).getLsbD 7 = false ∧ (0x7F : Byte).toNat ≤ (List.replicate 127 (0x41 : Byte)).length ∧
    (0x80 : Byte).getLsbD 7 = true ∧ ([0xFF] : List Byte) = 0xFF :: [] := by decide +kernel

theorem witness_ControlWordDecodes :
    (0xFFFFFFFE#32 &&& 0x1#32 = 0x0#32) ∧ (0xFFFFFFFD#32 &&& 0x3#32 = 0x1#32) ∧
    (0xFFFFFFFF#32 &&& 0x3#32 = 0x3#32) := by decide

/-! ## Witnesses: the step -/

theorem witness_StepRunsDecodedInstruction_token :
    let s := decoding [0x01, 0x41, 0x80, 0x18] 2 [0x41]
    EngineMoves s ∧ s.phase = .dec ∧ s.p ≠ s.n ∧ decodeToken s.tokenBytes = .ok (.bref 1 9, []) := by
  unfold EngineMoves; decide +kernel

theorem witness_StepRunsDecodedInstruction_command :
    HostMoves (loaded [0x41] [.regWrite 0 0x3, .regRead 1]) (.regWrite 0 0x3) [.regRead 1] := by
  unfold HostMoves; decide +kernel

theorem witness_BadConfigurationRefused :
    configValid { srcCap := 127, dstCap := 128, encOverlapSource := false } = true ∧
    configValid { srcCap := 127, dstCap := 127, encOverlapSource := false } = false ∧
    configValid { srcCap := 128, dstCap := 129, encOverlapSource := false } = false ∧
    configValid { srcCap := 0, dstCap := 4294967296, encOverlapSource := false } = false := by decide

theorem witness_IdleEngineTakesNoStep :
    configValid State.reset.cfg = true ∧ State.reset.phase = .idle ∧ nextTurn State.reset = none ∧
    nextTurn { State.reset with turns := [.engine] } = some .engine := by decide +kernel

/-! ## Witnesses: tokens -/

/-- At the boundary: the LIT's payload ends at `n`, and fills DST. -/
theorem witness_LitAppendsItsPayload :
    let s := small (decoding [0x02, 0x41, 0x42] 0 [0x61, 0x62, 0x63])
    configValid s.cfg = true ∧ s.p.toNat + 1 + 2 = s.n.toNat ∧ s.olen.toNat + 2 = s.cfg.dstCap := by decide +kernel

theorem witness_LitErrors :
    (let s := decoding [0x03, 0x41, 0x42] 0 []
     s.n.toNat < s.p.toNat + 1 + ([0x41, 0x42, 0] : List Byte).length) ∧
    (let s := small (decoding [0x03, 0x41, 0x42, 0x43] 0 [0x61, 0x62, 0x63])
     s.p.toNat + 1 + ([0x41, 0x42, 0x43] : List Byte).length ≤ s.n.toNat ∧ s.cfg.dstCap < s.olen.toNat + 3) := by
  decide +kernel

/-- At the boundaries: `d = olen`, and the copy fills DST. -/
theorem witness_BrefCopiesPeriodically :
    let s := small (decoding [0x01, 0x41, 0x80, 0x13] 2 [0x41])
    configValid s.cfg = true ∧ s.p.toNat + 1 < s.n.toNat ∧ 1 = s.olen.toNat ∧ s.olen.toNat + 4 = s.cfg.dstCap := by
  decide +kernel

theorem witness_BrefErrors :
    (let s := decoding [0x01, 0x41, 0x80] 2 [0x41]
     s.n.toNat = s.p.toNat + 1) ∧
    (let s := decoding [0x01, 0x41, 0x80, 0x22] 2 [0x41]
     s.p.toNat + 1 < s.n.toNat ∧ s.olen.toNat < 2) ∧
    (let s := small (decoding [0x01, 0x41, 0x80, 0x14] 2 [0x41])
     s.p.toNat + 1 < s.n.toNat ∧ 1 ≤ s.olen.toNat ∧ s.cfg.dstCap < s.olen.toNat + 5) := by decide +kernel

/-! ## Witnesses: the decoder's step -/

/-- One state for each clause: truncated, overflow, and the LIT of no bytes that completes. -/
theorem witness_DecodeStepOnLit :
    (let s := decoding [0x03, 0x41, 0x42] 0 []
     EngineMoves s ∧ s.phase = .dec ∧ s.p.toNat < s.n.toNat ∧ (srcByte s s.p.toNat).toNat = 3 ∧
       s.n.toNat - (s.p.toNat + 1) < 3) ∧
    (let s := small (decoding [0x03, 0x41, 0x42, 0x43] 0 [0x61, 0x62, 0x63])
     EngineMoves s ∧ s.phase = .dec ∧ s.p.toNat < s.n.toNat ∧ (srcByte s s.p.toNat).toNat = 3 ∧
       3 = s.n.toNat - (s.p.toNat + 1) ∧ s.cfg.dstCap < s.olen.toNat + 3) ∧
    (let s := decoding [0x00] 0 []
     EngineMoves s ∧ s.phase = .dec ∧ s.p.toNat < s.n.toNat ∧ (srcByte s s.p.toNat).toNat = 0 ∧
       0 = s.n.toNat - (s.p.toNat + 1) ∧ s.olen.toNat + 0 ≤ s.cfg.dstCap) := by
  unfold EngineMoves; decide +kernel

/-- One state for each clause: malformed, invalid (too far, and distance 0), overflow, and the overlapping copy. -/
theorem witness_DecodeStepOnBref :
    (let s := decoding [0x01, 0x41, 0x80] 2 [0x41]
     EngineMoves s ∧ s.phase = .dec ∧ srcByte s s.p.toNat = 0x80 ∧ s.n.toNat = s.p.toNat + 1) ∧
    (let s := decoding [0x01, 0x41, 0x80, 0x22] 2 [0x41]
     EngineMoves s ∧ s.phase = .dec ∧ srcByte s (s.p.toNat + 1) = 0x22 ∧ s.p.toNat + 1 < s.n.toNat ∧
       s.olen.toNat < 2) ∧
    (let s := decoding [0x01, 0x41, 0x80, 0x02] 2 [0x41]
     EngineMoves s ∧ s.phase = .dec ∧ srcByte s (s.p.toNat + 1) = 0x02 ∧ s.p.toNat + 1 < s.n.toNat ∧
       brefDistance 0x80 0x02 = 0) ∧
    (let s := small (decoding [0x01, 0x41, 0x80, 0x14] 2 [0x41])
     EngineMoves s ∧ s.phase = .dec ∧ srcByte s (s.p.toNat + 1) = 0x14 ∧ s.p.toNat + 1 < s.n.toNat ∧
       s.cfg.dstCap < s.olen.toNat + 5) ∧
    (let s := small (decoding [0x01, 0x41, 0x80, 0x13] 2 [0x41])
     EngineMoves s ∧ s.phase = .dec ∧ srcByte s (s.p.toNat + 1) = 0x13 ∧ s.p.toNat + 1 < s.n.toNat ∧
       s.olen.toNat + 4 = s.cfg.dstCap) := by
  unfold EngineMoves; decide +kernel

theorem witness_DecodeSucceedsExactlyAtEnd :
    (let s := decoding [0x01, 0x41] 2 [0x41]
     EngineMoves s ∧ s.phase = .dec ∧ s.p = s.n) ∧
    (let s := decoding [0x01, 0x41] 0 []
     EngineMoves s ∧ s.phase = .dec ∧ s.p ≠ s.n) := by
  unfold EngineMoves; decide +kernel

theorem witness_DecodeOperationComputesDecode :
    let s := loaded [0x01, 0x41, 0x80, 0x18] [.regWrite 0 0x3, .regRead 1]
    Inv s ∧ s.phase = .idle ∧ s.turns = [] ∧ s.host = .regWrite 0 0x3 :: [.regRead 1] ∧ 0x3#32 &&& 0x3#32 = 0x3#32 :=
  ⟨inv_loaded_decode, by decide +kernel⟩

theorem witness_RoomyDecodeNeverOverflows :
    8 * ([0x01, 0x41, 0x80, 0x1F] : List Byte).length ≤ 32 ∧
    decodeBytes 32 [0x01, 0x41, 0x80, 0x1F] = .ok (List.replicate 17 0x41) := by decide +kernel

theorem witness_DecodeOfEncodeIsTheInput : ([0x41, 0x42, 0x43] : List Byte).length ≤ 3 := by decide

/-! ## Witnesses: the match finder -/

theorem witness_MatchIsLongest :
    matchFind false (List.replicate 10 0x41) 6 = some (4, 4) ∧ matchFind false (List.replicate 10 0x41) 2 = none ∧
    matchFind false (List.replicate 10 0x41) 8 = none := by decide +kernel

theorem witness_MatchIsNearest :
    matchFind false (List.replicate 10 0x41) 6 = some (4, 4) ∧
    occursAt false (List.replicate 10 0x41) 6 4 2 = true := by decide +kernel

theorem witness_MatchBounds :
    6 < (List.replicate 10 (0x41 : Byte)).length ∧ matchFind false (List.replicate 10 0x41) 6 = some (4, 4) ∧
    2 < (List.replicate 10 (0x41 : Byte)).length := by decide +kernel

/-- Two inputs that differ in the byte just past the window, and match alike. -/
theorem witness_MatchDependsOnlyOnWindow :
    let S := List.replicate 20 (0x41 : Byte)
    let T := List.replicate 19 (0x41 : Byte) ++ [0x42]
    S.length = T.length ∧ (∀ k, windowLow 3 ≤ k → k < min S.length (3 + 16) → S[k]? = T[k]?) := by
  refine ⟨by decide, fun k _ hk => ?_⟩
  have : ∀ k < 19, (List.replicate 20 (0x41 : Byte))[k]? = (List.replicate 19 (0x41 : Byte) ++ [0x42])[k]? := by decide
  exact this k (Nat.lt_of_lt_of_le hk (by decide))

/-! ## Witnesses: the encoder's step -/

theorem witness_EncodeStepOnMatch :
    let s := encoding (List.replicate 10 0x41) 3 [0x41, 0x41, 0x41] []
    Inv s ∧ EngineMoves s ∧ s.phase = .enc ∧ s.i.toNat < s.n.toNat ∧
    matchFind s.cfg.encOverlapSource s.input s.i.toNat = some (3, 3) := by
  refine ⟨inv_encoding_match, ?_⟩
  unfold EngineMoves; decide +kernel

theorem witness_EncodeStepOnLiteral :
    let s := encoding [0x41, 0x42, 0x43] 1 [0x41] []
    Inv s ∧ EngineMoves s ∧ s.phase = .enc ∧ s.i.toNat < s.n.toNat ∧
    matchFind s.cfg.encOverlapSource s.input s.i.toNat = none ∧ s.lb.seq.length + 1 < 127 := by
  refine ⟨inv_encoding_literal, ?_⟩
  unfold EngineMoves; decide +kernel

/-- The 127th literal of a run. -/
theorem witness_EncodeStepOnLiteral_full :
    let s := encoding (List.replicate 127 0x41) 126 (List.replicate 126 0x41) []
    Inv s ∧ EngineMoves s ∧ s.phase = .enc ∧ s.i.toNat < s.n.toNat ∧
    matchFind s.cfg.encOverlapSource s.input s.i.toNat = none ∧ s.lb.seq.length + 1 = 127 := by
  refine ⟨inv_encoding_full, ?_⟩
  unfold EngineMoves; decide +kernel

theorem witness_EncodeStepAtEnd :
    let s := encoding [0x41, 0x42] 2 [0x41, 0x42] []
    Inv s ∧ EngineMoves s ∧ s.phase = .enc ∧ s.i = s.n ∧ s.lb.seq = [0x41, 0x42] := by
  refine ⟨inv_encoding_end, ?_⟩
  unfold EngineMoves; decide +kernel

/-- The end with nothing pending. -/
theorem witness_EncodeStepAtEnd_empty :
    let s := encoding [] 0 [] []
    Inv s ∧ EngineMoves s ∧ s.phase = .enc ∧ s.i = s.n ∧ s.lb.seq = [] := by
  refine ⟨inv_encoding_empty, ?_⟩
  unfold EngineMoves; decide +kernel

theorem witness_EncodeNeverFails :
    let s := encoding (List.replicate 127 0x41) 126 (List.replicate 126 0x41) []
    Inv s ∧ EngineMoves s ∧ s.phase = .enc := by
  refine ⟨inv_encoding_full, ?_⟩
  unfold EngineMoves; decide +kernel

theorem witness_EncodeOperationComputesEncode :
    let s := loaded [0x41, 0x42, 0x43] [.regWrite 0 0x1]
    Inv s ∧ s.phase = .idle ∧ s.turns = [] ∧ s.host = .regWrite 0 0x1 :: [] ∧ 0x1#32 &&& 0x3#32 = 0x1#32 :=
  ⟨inv_loaded, by decide +kernel⟩

theorem witness_EncodeTokenOrder : ([0x41] : List Byte) ≠ [] ∧ encodeBytes false [0x41] = [0x01, 0x41] := by
  decide +kernel

/-! ## Witnesses: commands, registers and buffers -/

/-- For the two clauses of SetModeWritesMode, StartEncodeBeginsAnEncode and StartDecodeBeginsADecode. -/
theorem witness_commands_idle_and_busy :
    State.reset.status.busy = false ∧ (decoding [0x01, 0x41] 0 []).status.busy = true := by decide +kernel

/-- A busy DCB with the host's write next, of each kind (at the last index of each buffer). -/
theorem witness_WritesWhileBusyIgnored :
    let s := decoding [0x01, 0x41] 0 []
    s.status.busy = true ∧ HostMoves (hostNext (.regWrite 0 0x1) s) (.regWrite 0 0x1) [] ∧
    HostMoves (hostNext (.srcWrite 4095 0x55) s) (.srcWrite 4095 0x55) [] ∧ 4095 < s.cfg.srcCap ∧
    HostMoves (hostNext (.dstWrite 4128 0x55) s) (.dstWrite 4128 0x55) [] ∧ 4128 < s.cfg.dstCap := by
  unfold HostMoves; decide +kernel

/-- A read of each register, idle and busy. -/
theorem witness_RegisterReadValues :
    (∀ r < 5, HostMoves (loaded [] [.regRead r]) (.regRead r) []) ∧
    HostMoves (hostNext (.regRead 3) (decoding [0x01, 0x41] 0 [])) (.regRead 3) [] ∧
    (loaded [] []).status.busy = false := by
  unfold HostMoves; decide +kernel

/-- SRC_LEN writes at SRC_CAP and just above it, and a write to STATUS. -/
theorem witness_RegisterWriteEffects :
    HostMoves (loaded [] [.regWrite 2 4096]) (.regWrite 2 4096) [] ∧
    HostMoves (loaded [] [.regWrite 2 4097]) (.regWrite 2 4097) [] ∧
    HostMoves (loaded [] [.regWrite 1 0xFF]) (.regWrite 1 0xFF) [] ∧
    (4096#32).toNat ≤ State.reset.cfg.srcCap ∧ State.reset.cfg.srcCap < (4097#32).toNat ∧
    State.reset.status.busy = false := by
  unfold HostMoves; decide +kernel

theorem witness_ReadsHaveNoSideEffect :
    let s := loaded [0x41] [.srcRead 0]
    HostMoves s (.srcRead 0) [] ∧ ∃ t, step s = .next t := by
  refine ⟨by unfold HostMoves; decide +kernel, ?_⟩
  obtain ⟨t, h, _⟩ := next_of_holds (o := step (loaded [0x41] [.srcRead 0])) (test := fun _ => true) (by decide +kernel)
  exact ⟨t, h⟩

theorem witness_SrcAccesses :
    4095 < State.reset.cfg.srcCap ∧ HostMoves (loaded [] [.srcWrite 4095 0x41]) (.srcWrite 4095 0x41) [] ∧
    HostMoves (loaded [] [.srcRead 4095]) (.srcRead 4095) [] ∧ (loaded [] []).status.busy = false := by
  unfold HostMoves; decide +kernel

/-- A write at the last index, an idle read of a specified byte, and a read while BUSY. -/
theorem witness_DstAccesses :
    4128 < State.reset.cfg.dstCap ∧ HostMoves (loaded [] [.dstWrite 4128 0x41]) (.dstWrite 4128 0x41) [] ∧
    (let s : State := { loaded [] [.dstRead 0] with dst := [(0, 0x41)] }
     HostMoves s (.dstRead 0) [] ∧ s.dst.read 0 = some 0x41 ∧ s.status.busy = false) ∧
    (let s := hostNext (.dstRead 0) (decoding [0x01, 0x41, 0x80, 0x18] 2 [0x41])
     HostMoves s (.dstRead 0) [] ∧ 0 < s.cfg.dstCap ∧ s.status.busy = true) := by
  unfold HostMoves; decide +kernel

theorem witness_OutsideAccessesRefused :
    State.reset.cfg.srcCap ≤ 4096 ∧ HostMoves (loaded [] [.srcRead 4096]) (.srcRead 4096) [] ∧
    HostMoves (loaded [] [.srcWrite 4096 0]) (.srcWrite 4096 0) [] ∧
    State.reset.cfg.dstCap ≤ 4129 ∧ HostMoves (loaded [] [.dstRead 4129]) (.dstRead 4129) [] ∧
    HostMoves (loaded [] [.dstWrite 4129 0]) (.dstWrite 4129 0) [] := by
  unfold HostMoves; decide +kernel

/-- Two states of a running encode that differ in the cursor, LB and the output length. -/
theorem witness_HiddenStateUnobservable :
    visible (encoding [0x41, 0x42, 0x43] 1 [0x41] []) =
      visible { encoding [0x41, 0x42, 0x43] 2 [0x41, 0x42] [] with olen := 7 } ∧
    ∃ t, hostAccess (.regRead 1) (encoding [0x41, 0x42, 0x43] 1 [0x41] []) = .next t :=
  ⟨by decide +kernel, _, rfl⟩

theorem witness_ResetFromAnyState :
    HostMoves (hostNext .reset (decoding [0x01, 0x41, 0x80, 0x18] 2 [0x41])) .reset [] := by
  unfold HostMoves; decide +kernel

theorem witness_InvariantAtReset : configValid { srcCap := 127, dstCap := 128, encOverlapSource := true } = true := by
  decide

/-! ## Witnesses: the whole machine -/

/-- A decode in the middle of a stream takes a step and is still running: for DecodeComputesDecodeUnderAnySchedule,
StepKeepsInvariant, NoStopButOutsideAccess, ConfigurationNeverChanges, InputFixedDuringOperation, OutputOnlyGrows and
EngineStepAdvances. -/
theorem witness_running_decode :
    let s := decoding [0x01, 0x41, 0x80, 0x18] 2 [0x41]
    Inv s ∧ EngineMoves s ∧ s.phase ≠ .idle ∧ ∃ t, step s = .next t ∧ t.phase ≠ .idle := by
  refine ⟨inv_decoding, by unfold EngineMoves; decide +kernel, by decide +kernel, ?_⟩
  obtain ⟨t, h, ht⟩ := next_of_holds (o := step (decoding [0x01, 0x41, 0x80, 0x18] 2 [0x41]))
    (test := fun t => decide (t.phase ≠ .idle)) (by decide +kernel)
  exact ⟨t, h, of_decide_eq_true ht⟩

/-- So does an encode: for EncodeComputesEncodeUnderAnySchedule and the same statements. -/
theorem witness_running_encode :
    let s := encoding (List.replicate 10 0x41) 3 [0x41, 0x41, 0x41] []
    Inv s ∧ EngineMoves s ∧ s.phase ≠ .idle ∧ ∃ t, step s = .next t ∧ t.phase ≠ .idle := by
  refine ⟨inv_encoding_match, by unfold EngineMoves; decide +kernel, by decide +kernel, ?_⟩
  obtain ⟨t, h, ht⟩ := next_of_holds (o := step (encoding (List.replicate 10 0x41) 3 [0x41, 0x41, 0x41] []))
    (test := fun t => decide (t.phase ≠ .idle)) (by decide +kernel)
  exact ⟨t, h, of_decide_eq_true ht⟩

/-- A refused step from a state of the invariant: for the second clause of NoStopButOutsideAccess. -/
theorem witness_refused_step :
    let s := loaded [] [.dstWrite 4129 0x41]
    Inv s ∧ step s = .refused .dstIndexOutside ∧ HostMoves s (.dstWrite 4129 0x41) [] ∧ s.cfg.dstCap ≤ 4129 :=
  ⟨by constructor <;> decide +kernel, rfl, by unfold HostMoves; decide +kernel, by decide +kernel⟩

/-- An idle DCB of the invariant, not BUSY, whose next step starts an operation and changes STATUS: for
OnlyStartBeginsAnOperation, ResultKeptUntilStartOrReset, and the first clauses of the two statements
UnderAnySchedule. -/
theorem witness_starting :
    let s := loaded [0x41, 0x42, 0x43] [.regWrite 0 0x1]
    Inv s ∧ s.status.busy = false ∧ s.phase = .idle ∧
    ∃ t, step s = .next t ∧ t.phase ≠ .idle ∧ t.status ≠ s.status := by
  refine ⟨inv_loaded, by decide +kernel, by decide +kernel, ?_⟩
  obtain ⟨t, h, ht⟩ := next_of_holds (o := step (loaded [0x41, 0x42, 0x43] [.regWrite 0 0x1]))
    (test := fun t => decide (t.phase ≠ .idle ∧ t.status ≠ (loaded [0x41, 0x42, 0x43] [.regWrite 0 0x1]).status))
    (by decide +kernel)
  exact ⟨t, h, of_decide_eq_true ht⟩

end Sys2Proof.Tests
end

section
/-! The obligations of 00_scope.md: which configurations are accepted (R7, R8), and that no step changes the
configuration. -/

namespace Sys2Proof.Machine

/-- Settles O7: R7's bounds and R8's inequality are `configValid`, and `step` asks for it before anyone moves. -/
theorem badConfigurationRefused : Obligations.BadConfigurationRefused := by
  intro s
  refine ⟨configValid_iff s.cfg, fun hbad => ?_⟩
  simp [step, hbad]

/-! ## The encoder's parts keep the configuration

Stated of every state, because the equations of `Laws/Encoder` ask that the output fits DST. -/

/-- The state a part of the encoder's step leaves, whether it went on or ended in an error completion. -/
def settled : Except State State → State
  | .ok s => s
  | .error s => s

theorem settle_eq_next (r : Except State State) : settle r = .next (settled r) := by
  cases r <;> rfl

theorem emit_keeps_cfg (bs : List Byte) (s : State) : (settled (emit bs s)).cfg = s.cfg := by
  rcases emit_cases bs s with ⟨-, h⟩ | ⟨-, h⟩ <;> simp [h, settled]

theorem flush_keeps_cfg (s : State) : (settled (flush s)).cfg = s.cfg := by
  have he := emit_keeps_cfg (serLit s.lb.seq) s
  rcases h : emit (serLit s.lb.seq) s with f | s' <;> simpa [flush, h, settled] using he

theorem flushPending_keeps_cfg (s : State) : (settled (flushPending s)).cfg = s.cfg := by
  unfold flushPending
  split
  · exact flush_keeps_cfg s
  · rfl

theorem encMatch_keeps_cfg (d l : Nat) (s : State) : (settled (encMatch d l s)).cfg = s.cfg := by
  have hf := flushPending_keeps_cfg s
  rcases h : flushPending s with f | s1
  · simpa [encMatch, h, settled] using hf
  · have hs1 : s1.cfg = s.cfg := by simpa [h, settled] using hf
    have he := emit_keeps_cfg (serBref d l) s1
    rcases h' : emit (serBref d l) s1 with f | s2 <;> simpa [encMatch, h, h', hs1, settled] using he

theorem encLiteral_keeps_cfg (s : State) : (settled (encLiteral s)).cfg = s.cfg := by
  unfold encLiteral
  split
  · exact flush_keeps_cfg (takeLiteral s)
  · rfl

theorem encFinish_keeps_cfg (s : State) : (settled (encFinish s)).cfg = s.cfg := by
  have hf := flushPending_keeps_cfg s
  rcases h : flushPending s with f | s' <;> simpa [encFinish, h, settled] using hf

/-! ## The moves of the two agents keep the configuration -/

/-- Where `o` answers a next state, its configuration is `c`. -/
def NextHasCfg (c : Config) (o : Host.Outcome State Fault Refusal) : Prop := ∀ t, o = .next t → t.cfg = c

@[simp] theorem nextHasCfg_next (c : Config) (t : State) : NextHasCfg c (.next t) ↔ t.cfg = c := by
  simp [NextHasCfg]

@[simp] theorem nextHasCfg_fault (c : Config) (f : Fault) : NextHasCfg c (.fault f) := by
  simp [NextHasCfg]

@[simp] theorem nextHasCfg_refused (c : Config) (r : Refusal) : NextHasCfg c (.refused r) := by
  simp [NextHasCfg]

theorem encStep_keeps_cfg (s : State) : NextHasCfg s.cfg (encStep s) := by
  simp only [encStep, settle_eq_next]
  split
  · simpa using encFinish_keeps_cfg s
  · split
    · simp
    · split
      · simpa using encMatch_keeps_cfg _ _ s
      · simpa using encLiteral_keeps_cfg s

theorem execLit_keeps_cfg (payload : List Byte) (s : State) : NextHasCfg s.cfg (execLit payload s) := by
  rcases execLit_cases payload s with ⟨-, h⟩ | ⟨-, -, h⟩ | ⟨-, -, h⟩ <;> simp [h]

theorem execBref_keeps_cfg (d l : Nat) (s : State) : NextHasCfg s.cfg (execBref d l s) := by
  unfold execBref
  repeat' split
  all_goals simp

theorem decStep_keeps_cfg (s : State) : NextHasCfg s.cfg (decStep s) := by
  rcases decStep_cases s with ⟨-, h⟩ | ⟨-, i, rest, hdec, h⟩ | ⟨-, -, h⟩ | ⟨-, -, h⟩ | ⟨-, -, h⟩
  case inr.inl =>
    rw [h]
    rcases decodeToken_ok hdec with ⟨payload, rfl, -⟩ | ⟨d, l, rfl, -⟩
    · exact execLit_keeps_cfg payload s
    · exact execBref_keeps_cfg d l s
  all_goals simp [h]

theorem engineTurn_keeps_cfg (s : State) : NextHasCfg s.cfg (engineTurn s) := by
  unfold engineTurn
  split
  · simp
  · exact encStep_keeps_cfg s
  · exact decStep_keeps_cfg s

theorem execCtrl_keeps_cfg (w : Word) (s : State) : NextHasCfg s.cfg (exec (decodeCtrl w) s) := by
  rcases execCtrl_cases w s with ⟨-, h⟩ | ⟨-, -, m, h⟩ | ⟨-, -, h⟩ | ⟨-, -, h⟩ <;> simp [h]

@[simp] theorem writeSrcLen_cfg (w : Word) (s : State) : (writeSrcLen w s).cfg = s.cfg := by
  unfold writeSrcLen
  repeat' split
  all_goals rfl

@[simp] theorem writeSrc_cfg (k : Nat) (b : Byte) (s : State) : (writeSrc k b s).cfg = s.cfg := by
  unfold writeSrc
  split <;> rfl

@[simp] theorem writeDst_cfg (k : Nat) (b : Byte) (s : State) : (writeDst k b s).cfg = s.cfg := by
  unfold writeDst
  split <;> rfl

theorem writeRegister_keeps_cfg (r : Nat) (w : Word) (s : State) : NextHasCfg s.cfg (writeRegister r w s) := by
  rcases writeRegister_cases r w s with ⟨-, h⟩ | ⟨-, h⟩ | ⟨-, -, h⟩
  · exact h ▸ execCtrl_keeps_cfg w s
  · simp [h]
  · simp [h]

theorem hostAccess_keeps_cfg (a : HostAction) (s : State) : NextHasCfg s.cfg (hostAccess a s) := by
  cases a with
  | regRead r => simp [hostAccess]
  | regWrite r w => exact writeRegister_keeps_cfg r w s
  | srcRead k | srcWrite k b | dstRead k | dstWrite k b =>
    simp only [hostAccess]
    split <;> simp
  | reset => simp [hostAccess]

/-- Settles O50, by who moves: a turn taken off its list leaves the configuration, and so does either agent's move. -/
theorem configurationNeverChanges : Obligations.ConfigurationNeverChanges := by
  intro s
  change NextHasCfg s.cfg (step s)
  rcases step_cases s with ⟨-, h⟩ | ⟨-, h⟩ | ⟨a, rest, -, h⟩ | ⟨-, -, -, h⟩ | ⟨-, -, h⟩ <;> rw [h]
  · exact nextHasCfg_refused _ _
  · exact engineTurn_keeps_cfg (takeTurn s)
  · exact hostAccess_keeps_cfg a (hostTook s rest)
  · simp
  · simp

end Sys2Proof.Machine
end

section
/-! The obligations of 10_state.md: the invariant, what a running operation keeps, how one begins, and what the host cannot
see. -/

namespace Sys2Proof.Machine

/-! ## An idle engine and the register writes -/

theorem engineTurn_idle {s : State} (h : s.phase = .idle) : engineTurn s = .next s := by
  simp [engineTurn, h]

/-- Settles O8: an idle engine's turn answers the state it was given. -/
theorem idleEngineTakesNoStep : Obligations.IdleEngineTakesNoStep := by
  intro s hv hidle
  refine ⟨fun hturn => ?_, fun hnone => ?_⟩
  · rw [step_engine ⟨hv, hturn⟩]
    exact engineTurn_idle (s := takeTurn s) hidle
  · simp [step, hv, hnone]

theorem writeSrcLen_fits {s : State} {w : Word} (hb : s.status.busy = false) (hw : w.toNat ≤ s.cfg.srcCap) :
    writeSrcLen w s = { s with srcLen := w } := by
  simp [writeSrcLen, hb, hw]

theorem writeSrcLen_above {s : State} {w : Word} (hw : s.cfg.srcCap < w.toNat) : writeSrcLen w s = s := by
  simp [writeSrcLen, Nat.not_le.2 hw]

/-- Settles O39, by the register index. -/
theorem registerWriteEffects : Obligations.RegisterWriteEffects := by
  intro s r w rest hmoves hr0 hidle
  rw [step_host hmoves]
  change (_ → _ → writeRegister r w (hostTook s rest) = _) ∧ (_ → writeRegister r w (hostTook s rest) = _)
  rcases writeRegister_cases r w (hostTook s rest) with ⟨h0, -⟩ | ⟨h2, h⟩ | ⟨-, h2, h⟩
  · exact absurd h0 hr0
  · rw [h]
    refine ⟨fun _ hw => congrArg _ (writeSrcLen_fits hidle hw), fun hother => ?_⟩
    exact congrArg _ (writeSrcLen_above (s := hostTook s rest) (hother.resolve_left (not_not_intro h2)))
  · exact ⟨fun h2' => absurd h2' h2, fun _ => h⟩

/-! ## What the host can see

The host's actions commute with forgetting the engine's registers and LB. -/

/-- What the host can see of a step's answer. -/
def seen : Host.Outcome State Fault Refusal → Host.Outcome State Fault Refusal
  | .next t => .next (visible t)
  | .fault f => .fault f
  | .refused r => .refused r

@[simp] theorem seen_next (t : State) : seen (.next t) = .next (visible t) := rfl

theorem next_of_seen_eq {o o' : Host.Outcome State Fault Refusal} {t : State} (h : seen o = seen o') (ho : o = .next t) :
    ∃ t', o' = .next t' ∧ visible t = visible t' := by
  subst ho
  cases o' with
  | next t' => exact ⟨t', rfl, by simpa [seen] using h⟩
  | fault f => cases h
  | refused r => cases h

/-- A CTRL write is one of the three commands (R59). -/
theorem decodeCtrl_command (w : Word) :
    (∃ m, decodeCtrl w = .setMode m) ∨ decodeCtrl w = .startEncode ∨ decodeCtrl w = .startDecode := by
  unfold decodeCtrl
  split <;> simp

theorem execSetMode_visible (m : Mode) (s : State) : seen (execSetMode m (visible s)) = seen (execSetMode m s) := by
  cases hb : s.status.busy <;> simp [execSetMode, seen, visible, hb]

theorem execStartEncode_visible (s : State) : seen (execStartEncode (visible s)) = seen (execStartEncode s) := by
  cases hb : s.status.busy <;> simp [execStartEncode, startOperation, seen, visible, hb]

theorem execStartDecode_visible (s : State) : seen (execStartDecode (visible s)) = seen (execStartDecode s) := by
  cases hb : s.status.busy <;> simp [execStartDecode, startOperation, seen, visible, hb]

theorem writeSrcLen_visible (w : Word) (s : State) : visible (writeSrcLen w (visible s)) = visible (writeSrcLen w s) := by
  simp only [writeSrcLen, apply_ite visible]
  rfl

theorem writeSrc_visible (k : Nat) (b : Byte) (s : State) :
    visible (writeSrc k b (visible s)) = visible (writeSrc k b s) := by
  simp only [writeSrc, apply_ite visible]
  rfl

theorem writeDst_visible (k : Nat) (b : Byte) (s : State) :
    visible (writeDst k b (visible s)) = visible (writeDst k b s) := by
  simp only [writeDst, apply_ite visible]
  rfl

theorem writeRegister_visible (r : Nat) (w : Word) (s : State) :
    seen (writeRegister r w (visible s)) = seen (writeRegister r w s) := by
  unfold writeRegister
  split
  · rcases decodeCtrl_command w with ⟨m, h⟩ | h | h <;> rw [h]
    · exact execSetMode_visible m s
    · exact execStartEncode_visible s
    · exact execStartDecode_visible s
  · rw [seen_next, seen_next, writeSrcLen_visible]
  · rfl

/-- Every host action has the same visible answer whether or not the hidden state is forgotten before it (R26). -/
theorem hostAccess_visible (a : HostAction) (s : State) : seen (hostAccess a (visible s)) = seen (hostAccess a s) := by
  cases a with
  | regRead r => rfl
  | regWrite r w => exact writeRegister_visible r w s
  | srcRead k | dstRead k =>
    simp only [hostAccess, apply_ite seen]
    rfl
  | srcWrite k b =>
    simp only [hostAccess, apply_ite seen, seen_next, writeSrc_visible]
    rfl
  | dstWrite k b =>
    simp only [hostAccess, apply_ite seen, seen_next, writeDst_visible]
    rfl
  | reset => rfl

/-- Settles O44: both states' answers look like that of the one state the host can see. -/
theorem hiddenStateUnobservable : Obligations.HiddenStateUnobservable := by
  intro s u s' a hsame hs
  have hseen : seen (hostAccess a s) = seen (hostAccess a u) := by
    rw [← hostAccess_visible a s, hsame, hostAccess_visible]
  exact next_of_seen_eq hseen hs

/-! ## What a host action that is not refused does -/

/-- Everything a host action can answer as a next state: `hostAccess_cases` without the refusals. -/
theorem hostAccess_next {a : HostAction} {s t : State} (h : hostAccess a s = .next t) :
    (∃ r, t = answer r s) ∨ (∃ w, a = .regWrite 0 w ∧ exec (decodeCtrl w) s = .next t) ∨ (∃ w, t = writeSrcLen w s) ∨
    t = s ∨ (∃ k b, k < s.cfg.srcCap ∧ t = writeSrc k b s) ∨ (∃ k b, k < s.cfg.dstCap ∧ t = writeDst k b s) ∨
    (a = .reset ∧ t = resetDcb s) := by
  have answered : ∀ {u}, hostAccess a s = .next u → t = u := fun h' => Host.Outcome.next.inj (h.symm.trans h')
  rcases hostAccess_cases a s with ⟨k, -, -, h'⟩ | ⟨k, -, -, h'⟩ | ⟨r, -, h'⟩ | ⟨w, ha, h'⟩ | ⟨w, -, h'⟩ |
    ⟨k, w, -, -, -, h'⟩ | ⟨k, b, -, hk, h'⟩ | ⟨k, b, -, hk, h'⟩ | ⟨ha, h'⟩
  · cases h.symm.trans h'
  · cases h.symm.trans h'
  · exact .inl ⟨r, answered h'⟩
  · exact .inr (.inl ⟨w, ha, h'.symm.trans h⟩)
  · exact .inr (.inr (.inl ⟨w, answered h'⟩))
  · exact .inr (.inr (.inr (.inl (answered h'))))
  · exact .inr (.inr (.inr (.inr (.inl ⟨k, b, hk, answered h'⟩))))
  · exact .inr (.inr (.inr (.inr (.inr (.inl ⟨k, b, hk, answered h'⟩)))))
  · exact .inr (.inr (.inr (.inr (.inr (.inr ⟨ha, answered h'⟩)))))

/-! ## How an operation begins -/

/-- `w` starts an operation in phase `ph` (R104, R105, R59). -/
def Starts (w : Word) (ph : Phase) : Prop :=
  ph = .enc ∧ w &&& 0x3#32 = 0x1#32 ∨ ph = .dec ∧ w &&& 0x3#32 = 0x3#32

@[simp] theorem writeSrcLen_phase (w : Word) (s : State) : (writeSrcLen w s).phase = s.phase := by
  unfold writeSrcLen
  split
  · rfl
  · split <;> rfl

@[simp] theorem writeSrc_phase (k : Nat) (b : Byte) (s : State) : (writeSrc k b s).phase = s.phase := by
  unfold writeSrc
  split <;> rfl

@[simp] theorem writeDst_phase (k : Nat) (b : Byte) (s : State) : (writeDst k b s).phase = s.phase := by
  unfold writeDst
  split <;> rfl

theorem execCtrl_phase {w : Word} {s t : State} (h : exec (decodeCtrl w) s = .next t) :
    t.phase = s.phase ∨ Starts w t.phase := by
  rcases execCtrl_cases w s with ⟨-, h'⟩ | ⟨-, -, m, h'⟩ | ⟨-, hw, h'⟩ | ⟨-, hw, h'⟩ <;> cases h'.symm.trans h
  · exact .inl rfl
  · exact .inl rfl
  · exact .inr (.inl ⟨rfl, hw⟩)
  · exact .inr (.inr ⟨rfl, hw⟩)

/-- A host action keeps the phase, leads to IDLE (reset), or is a START command. -/
theorem hostAccess_phase {a : HostAction} {s t : State} (h : hostAccess a s = .next t) :
    t.phase = s.phase ∨ t.phase = .idle ∨ ∃ w, a = .regWrite 0 w ∧ Starts w t.phase := by
  rcases hostAccess_next h with ⟨r, rfl⟩ | ⟨w, rfl, hc⟩ | ⟨w, rfl⟩ | rfl | ⟨k, b, -, rfl⟩ | ⟨k, b, -, rfl⟩ | ⟨-, rfl⟩
  · exact .inl rfl
  · exact (execCtrl_phase hc).imp_right fun hstart => .inr ⟨w, rfl, hstart⟩
  · exact .inl (writeSrcLen_phase w s)
  · exact .inl rfl
  · exact .inl (writeSrc_phase k b s)
  · exact .inl (writeDst_phase k b s)
  · exact .inr (.inl rfl)

/-- Settles O54, by who moves: only a host action can leave IDLE, and of those only a START command does. -/
theorem onlyStartBeginsAnOperation : Obligations.OnlyStartBeginsAnOperation := by
  intro s t hidle hs hrun
  rcases step_cases s with ⟨-, h⟩ | ⟨-, h⟩ | ⟨a, rest, hmoves, h⟩ | ⟨-, -, -, h⟩ | ⟨-, -, h⟩ <;> rw [h] at hs
  · cases hs
  · rw [engineTurn_idle (s := takeTurn s) hidle] at hs
    cases hs
    exact absurd hidle hrun
  · rcases hostAccess_phase hs with hp | hp | ⟨w, rfl, hstart⟩
    · exact absurd (hp.trans hidle) hrun
    · exact absurd hp hrun
    · exact ⟨w, rest, hmoves, hstart⟩
  · cases hs
    exact absurd hidle hrun
  · cases hs
    exact absurd hidle hrun

/-! ## The engine's step from a state of the invariant -/

/-- From `s` to `t` the running operation went on: it appended `bs`, and nothing but its registers, LB and DST
changed. -/
structure GoesOn (s t : State) (bs : List Byte) : Prop extends Appended s t bs where
  frame : t = { s with i := t.i, lb := t.lb, p := t.p, olen := t.olen, dst := t.dst }

/-- `o` is a next state of the invariant in which the operation of `s` has ended or gone on. -/
def EndsOrGoesOn (s : State) (o : Host.Outcome State Fault Refusal) : Prop :=
  ∃ t, o = .next t ∧ Inv t ∧ (t.phase = .idle ∨ ∃ bs, GoesOn s t bs)

theorem endsOrGoesOn_raise {s : State} (h : Inv s) (e : ErrorKind) : EndsOrGoesOn s (.next (raise e s)) :=
  ⟨_, rfl, inv_raise h e, .inl rfl⟩

/-- Appending leaves every field but DST and `olen`. -/
theorem appendAll_frame (s : State) (bs : List Byte) :
    s.appendAll bs = { s with olen := (s.appendAll bs).olen, dst := (s.appendAll bs).dst } := by
  induction bs generalizing s with
  | nil => rfl
  | cons b bs ih => rw [State.appendAll, ih]; rfl

/-- A token that passes its checks lets the decode go on (R88, R89). -/
theorem endsOrGoesOn_token {s : State} {bs : List Byte} {k : Nat} (h : Inv s) (hdec : s.phase = .dec)
    (hfit : s.olen.toNat + bs.length ≤ s.cfg.dstCap) (hp : s.p.toNat + k ≤ s.n.toNat) :
    EndsOrGoesOn s (.next ((s.appendAll bs).advanceP k)) := by
  refine ⟨_, rfl, inv_token h hdec hfit hp, .inr ⟨bs, ⟨rfl, rfl, hfit⟩, ?_⟩⟩
  rw [appendAll_frame]
  rfl

theorem execLit_endsOrGoesOn {s : State} (h : Inv s) (hdec : s.phase = .dec) (payload : List Byte) :
    EndsOrGoesOn s (execLit payload s) := by
  rcases execLit_cases payload s with ⟨-, he⟩ | ⟨-, -, he⟩ | ⟨hn, hfit, he⟩ <;> rw [he]
  · exact endsOrGoesOn_raise h _
  · exact endsOrGoesOn_raise h _
  · exact endsOrGoesOn_token h hdec hfit (by omega)

theorem execBref_endsOrGoesOn {s : State} (h : Inv s) (hdec : s.phase = .dec) (d l : Nat) :
    EndsOrGoesOn s (execBref d l s) := by
  rcases execBref_cases d l s h.dstCap_lt with ⟨-, he⟩ | ⟨-, -, he⟩ | ⟨-, -, -, -, he⟩ | ⟨hn, -, -, hfit, he⟩ <;> rw [he]
  · exact endsOrGoesOn_raise h _
  · exact endsOrGoesOn_raise h _
  · exact endsOrGoesOn_raise h _
  · exact endsOrGoesOn_token h hdec (by simpa using hfit) (by omega)

/-- A running decode whose cursor is not at the end has a byte at it. -/
theorem decode_byte_left {s : State} (h : Inv s) (hdec : s.phase = .dec) (hend : s.p ≠ s.n) : s.p.toNat < s.n.toNat :=
  Nat.lt_of_le_of_ne (h.pBound hdec) fun hc => hend (BitVec.eq_of_toNat_eq hc)

theorem decStep_endsOrGoesOn {s : State} (h : Inv s) (hdec : s.phase = .dec) : EndsOrGoesOn s (decStep s) := by
  rcases decStep_cases s with ⟨-, hs⟩ | ⟨-, i, rest, htok, hs⟩ | ⟨-, -, hs⟩ | ⟨-, -, hs⟩ | ⟨hend, hempty, -⟩
  · exact hs ▸ ⟨_, rfl, inv_complete h (by simp [hdec]), .inl rfl⟩
  · rw [hs]
    rcases decodeToken_ok htok with ⟨payload, rfl, -⟩ | ⟨d, l, rfl, -⟩
    · exact execLit_endsOrGoesOn h hdec payload
    · exact execBref_endsOrGoesOn h hdec d l
  · exact hs ▸ endsOrGoesOn_raise h _
  · exact hs ▸ endsOrGoesOn_raise h _
  · rw [tokenBytes_cons (decode_byte_left h hdec hend)] at hempty
    exact absurd hempty (decodeToken_ne_empty _ _)

/-- An encode that has appended `bs`, moved its cursor and changed LB goes on, if it keeps to the bounds of R13, R14 and
R84. -/
theorem endsOrGoesOn_encode {s : State} {bs : List Byte} {i : Word} {lb : LitBuf} (h : Inv s) (henc : s.phase = .enc)
    (hfit : s.olen.toNat + bs.length ≤ s.cfg.dstCap) (hi : i.toNat ≤ s.n.toNat) (hlb : lb.count.toNat ≤ 126)
    (hexp : 127 * (s.olen.toNat + bs.length) + 128 * lb.count.toNat ≤ 128 * i.toNat) :
    EndsOrGoesOn s (.next { s.appendAll bs with i := i, lb := lb }) := by
  have happ : Appended s { s.appendAll bs with i := i, lb := lb } bs := ⟨rfl, rfl, hfit⟩
  have hframe : ({ s.appendAll bs with i := i, lb := lb } : State) =
      { s with i := i, lb := lb, p := (s.appendAll bs).p, olen := (s.appendAll bs).olen, dst := (s.appendAll bs).dst } := by
    rw [appendAll_frame]
  exact ⟨_, rfl, inv_appended h (by simp [henc]) happ hframe (fun _ => hi) (by simp [henc]) hlb (fun _ => hexp),
    .inr ⟨bs, happ, hframe⟩⟩

/-- Appending touches neither the encoder's cursor nor LB, so it may come before or after a change of them. -/
theorem appendAll_encoder (s : State) (bs : List Byte) (i : Word) (lb : LitBuf) :
    ({ s with i := i, lb := lb } : State).appendAll bs = { s.appendAll bs with i := i, lb := lb } := by
  induction bs generalizing s with
  | nil => rfl
  | cons b bs ih => exact ih (s.append b)

/-- Taking a literal that leaves room in LB (R75). -/
theorem takeLiteral_endsOrGoesOn {s : State} (h : Inv s) (henc : s.phase = .enc) (hi : s.i.toNat < s.n.toNat)
    (hroom : s.lbLen + 1 ≤ 126) : EndsOrGoesOn s (.next (takeLiteral s)) := by
  have hcursor : (takeLiteral s).i.toNat = s.i.toNat + 1 := word_add_toNat s.i 1 (by omega)
  have hcount : (takeLiteral s).lb.count.toNat = s.lbLen + 1 := LitBuf.push_count s.lb _ h.lbBound
  have hexp := h.expansion henc
  exact endsOrGoesOn_encode (bs := []) (i := (takeLiteral s).i) (lb := (takeLiteral s).lb) h henc h.olenBound
    (by omega) (by omega) (by simp only [List.length_nil]; omega)

/-- Taking the literal that fills LB, with its flush (R75). -/
theorem takeLiteral_flush_endsOrGoesOn {s : State} (h : Inv s) (henc : s.phase = .enc) (hi : s.i.toNat < s.n.toNat)
    (hfull : s.lbLen = 126) (hfit : s.olen.toNat + 128 ≤ s.cfg.dstCap) :
    EndsOrGoesOn s (.next { (takeLiteral s).appendAll (serLit (s.lb.seq ++ [srcByte s s.i.toNat])) with
                            lb := (takeLiteral s).lb.clear }) := by
  have hcursor : (takeLiteral s).i.toNat = s.i.toNat + 1 := word_add_toNat s.i 1 (by omega)
  have hlen : (serLit (s.lb.seq ++ [srcByte s s.i.toNat])).length = 128 := by
    rw [serLit_length, List.length_append, LitBuf.seq_length, show s.lb.count.toNat = 126 from hfull]
    rfl
  have hclear : (takeLiteral s).lb.clear.count.toNat = 0 := rfl
  have hexp := h.expansion henc
  rw [show takeLiteral s = { s with i := (takeLiteral s).i, lb := (takeLiteral s).lb } from rfl, appendAll_encoder]
  exact endsOrGoesOn_encode (i := (takeLiteral s).i) (lb := (takeLiteral s).lb.clear) h henc (by omega) (by omega)
    (by omega) (by omega)

theorem encStep_endsOrGoesOn {s : State} (h : Inv s) (henc : s.phase = .enc) : EndsOrGoesOn s (encStep s) := by
  rcases encStep_cases h henc with ⟨-, hfit, hs⟩ | ⟨d, l, -, -, hl, hexp, hfit, hs⟩ | ⟨hi, -, hroom, hs⟩ |
    ⟨hi, -, hfull, hfit, hs⟩ <;> rw [hs]
  · exact ⟨_, rfl, inv_complete_appended h (by simp [henc]) hfit (by simp), .inl rfl⟩
  · have hcursor : (s.i + BitVec.ofNat 32 l).toNat = s.i.toNat + l := word_add_toNat s.i l (by omega)
    simp only [State.advanceI, appendAll_i]
    exact endsOrGoesOn_encode h henc hfit (by omega) (by simp) (by simpa [hcursor] using hexp)
  · exact takeLiteral_endsOrGoesOn h henc hi hroom
  · exact takeLiteral_flush_endsOrGoesOn h henc hi hfull hfit

/-- The engine's turn in a running operation, from a state of the invariant. -/
theorem engineTurn_endsOrGoesOn {s : State} (h : Inv s) (hrun : s.phase ≠ .idle) : EndsOrGoesOn s (engineTurn s) := by
  unfold engineTurn
  split
  next hidle => exact absurd hidle hrun
  next henc => exact encStep_endsOrGoesOn h henc
  next hdec => exact decStep_endsOrGoesOn h hdec

/-! ## Every step keeps the invariant -/

theorem execCtrl_keeps_inv {w : Word} {s t : State} (h : Inv s) (hs : exec (decodeCtrl w) s = .next t) : Inv t := by
  rcases execCtrl_cases w s with ⟨-, h'⟩ | ⟨-, -, m, h'⟩ | ⟨-, -, h'⟩ | ⟨-, -, h'⟩ <;> cases h'.symm.trans hs
  · exact h
  · exact inv_setMode h m
  · exact inv_startEncode h
  · exact inv_startDecode h

theorem hostAccess_keeps_inv {a : HostAction} {s t : State} (h : Inv s) (hs : hostAccess a s = .next t) : Inv t := by
  rcases hostAccess_next hs with
    ⟨r, rfl⟩ | ⟨w, -, hc⟩ | ⟨w, rfl⟩ | rfl | ⟨k, b, hk, rfl⟩ | ⟨k, b, hk, rfl⟩ | ⟨-, rfl⟩
  · exact inv_answer h r
  · exact execCtrl_keeps_inv h hc
  · exact inv_writeSrcLen h w
  · exact h
  · exact inv_writeSrc h hk b
  · exact inv_writeDst h hk b
  · exact inv_resetDcb h

theorem engineTurn_keeps_inv {s t : State} (h : Inv s) (hs : engineTurn s = .next t) : Inv t := by
  by_cases hidle : s.phase = .idle
  · rw [engineTurn_idle hidle] at hs
    cases hs
    exact h
  · obtain ⟨t', ht', hinv, -⟩ := engineTurn_endsOrGoesOn h hidle
    cases ht'.symm.trans hs
    exact hinv

/-- Settles O48, by who moves: each move and the turn taken off its list keep the invariant. -/
theorem stepKeepsInvariant : Obligations.StepKeepsInvariant := by
  intro s t h hs
  rcases step_cases s with ⟨-, h'⟩ | ⟨-, h'⟩ | ⟨a, rest, -, h'⟩ | ⟨-, -, -, h'⟩ | ⟨-, -, h'⟩ <;> rw [h'] at hs
  · cases hs
  · exact engineTurn_keeps_inv (inv_takeTurn h) hs
  · exact hostAccess_keeps_inv (inv_hostTook h rest) hs
  · cases hs
    exact inv_takeTurn h
  · cases hs
    exact h

/-! ## What a running operation keeps -/

/-- From `s` to `t` only the model's own fields changed. -/
def SameDcb (s t : State) : Prop :=
  t = { s with host := t.host, turns := t.turns, reply := t.reply, draws := t.draws }

theorem execCtrl_busy {w : Word} {s t : State} (hb : s.status.busy = true) (h : exec (decodeCtrl w) s = .next t) :
    t = s := by
  rcases execCtrl_cases w s with ⟨-, h'⟩ | ⟨hidle, -⟩ | ⟨hidle, -⟩ | ⟨hidle, -⟩
  · exact Host.Outcome.next.inj (h.symm.trans h')
  all_goals simp [hb] at hidle

/-- While BUSY, a host action resets the DCB or leaves all its state (R106, R109 to R111). -/
theorem hostAccess_busy {a : HostAction} {s t : State} (hb : s.status.busy = true) (h : hostAccess a s = .next t) :
    t.phase = .idle ∨ SameDcb s t := by
  rcases hostAccess_next h with ⟨r, rfl⟩ | ⟨w, -, hc⟩ | ⟨w, rfl⟩ | rfl | ⟨k, b, -, rfl⟩ | ⟨k, b, -, rfl⟩ | ⟨-, rfl⟩
  · exact .inr rfl
  · exact .inr (execCtrl_busy hb hc ▸ rfl)
  · exact .inr (by simp [SameDcb, writeSrcLen, hb])
  · exact .inr rfl
  · exact .inr (by simp [SameDcb, writeSrc, hb])
  · exact .inr (by simp [SameDcb, writeDst, hb])
  · exact .inl rfl

/-- A step after which the operation still runs is an engine step that goes on, or leaves the DCB as it is. -/
theorem step_still_running {s t : State} (h : Inv s) (hrun : s.phase ≠ .idle) (hs : step s = .next t)
    (ht : t.phase ≠ .idle) : (∃ bs, GoesOn (takeTurn s) t bs) ∨ SameDcb s t := by
  rcases step_cases s with ⟨-, h'⟩ | ⟨-, h'⟩ | ⟨a, rest, -, h'⟩ | ⟨-, -, -, h'⟩ | ⟨-, -, h'⟩ <;> rw [h'] at hs
  · cases hs
  · obtain ⟨t', ht', -, hend | hon⟩ := engineTurn_endsOrGoesOn (s := takeTurn s) (inv_takeTurn h) hrun
    all_goals cases ht'.symm.trans hs
    · exact absurd hend ht
    · exact .inl hon
  · rcases hostAccess_busy (s := hostTook s rest) (h.busyPhase.2 hrun) hs with hidle | hsame
    · exact absurd hidle ht
    · exact .inr hsame
  · cases hs
    exact .inr rfl
  · cases hs
    exact .inr rfl

/-- Settles O51: neither a step that goes on nor a host action while BUSY touches what the input depends on. -/
theorem inputFixedDuringOperation : Obligations.InputFixedDuringOperation := by
  intro s t h hrun hs ht
  have hkeeps : t.phase = s.phase ∧ t.n = s.n ∧ t.src = s.src ∧ t.resets = s.resets := by
    rcases step_still_running h hrun hs ht with ⟨bs, hon⟩ | hsame
    · rw [hon.frame]
      exact ⟨rfl, rfl, rfl, rfl⟩
    · rw [hsame]
      exact ⟨rfl, rfl, rfl, rfl⟩
  obtain ⟨hphase, hn, hsrc, hresets⟩ := hkeeps
  exact ⟨hphase, hn, hsrc, input_congr hn hsrc hresets⟩

/-- Appending does not lower `olen` and rewrites no byte below it (R16, R90). -/
theorem Appended.output_kept {s t : State} {bs : List Byte} (ha : Appended s t bs) (hcap : s.cfg.dstCap < 2 ^ 32) :
    s.olen.toNat ≤ t.olen.toNat ∧ ∀ j < s.olen.toNat, t.dst.read j = s.dst.read j := by
  have hw : s.olen.toNat + bs.length < 2 ^ 32 := Nat.lt_of_le_of_lt ha.fits hcap
  refine ⟨?_, fun j hj => ?_⟩
  · rw [ha.olen, appendAll_olen _ _ hw]
    omega
  · rw [ha.dst, appendAll_read_other _ _ hw _ (by omega)]

/-- Settles O52: only the engine's appending changes DST while the operation runs. -/
theorem outputOnlyGrows : Obligations.OutputOnlyGrows := by
  intro s t h hrun hs ht
  rcases step_still_running h hrun hs ht with ⟨bs, hon⟩ | hsame
  · exact hon.toAppended.output_kept h.dstCap_lt
  · rw [hsame]
    exact ⟨Nat.le_refl _, fun _ _ => rfl⟩

end Sys2Proof.Machine
end

section
/-! The obligations of 20_memory.md: reads have no side effect (R37), an access outside a buffer is refused (R31), and
nothing else stops a step. -/

namespace Sys2Proof.Machine

/-! ## Accesses outside the buffers -/

theorem hostAccess_src_outside {a : HostAction} {s : State} {k : Nat} (hk : s.cfg.srcCap ≤ k)
    (ha : a = .srcRead k ∨ ∃ b, a = .srcWrite k b) : hostAccess a s = .refused .srcIndexOutside := by
  rcases ha with rfl | ⟨b, rfl⟩ <;> exact if_neg (Nat.not_lt.2 hk)

theorem hostAccess_dst_outside {a : HostAction} {s : State} {k : Nat} (hk : s.cfg.dstCap ≤ k)
    (ha : a = .dstRead k ∨ ∃ b, a = .dstWrite k b) : hostAccess a s = .refused .dstIndexOutside := by
  rcases ha with rfl | ⟨b, rfl⟩ <;> exact if_neg (Nat.not_lt.2 hk)

/-- Settles O43, buffer by buffer: the host's turn keeps the capacities, so its action is refused as it stands. -/
theorem outsideAccessesRefused : Obligations.OutsideAccessesRefused := by
  intro s k b rest
  refine ⟨fun hk hmoves => ?_, fun hk hmoves => ?_⟩
  · rcases hmoves with hread | hwrite
    · rw [step_host hread]
      exact hostAccess_src_outside (s := hostTook s rest) hk (.inl rfl)
    · rw [step_host hwrite]
      exact hostAccess_src_outside (s := hostTook s rest) hk (.inr ⟨b, rfl⟩)
  · rcases hmoves with hread | hwrite
    · rw [step_host hread]
      exact hostAccess_dst_outside (s := hostTook s rest) hk (.inl rfl)
    · rw [step_host hwrite]
      exact hostAccess_dst_outside (s := hostTook s rest) hk (.inr ⟨b, rfl⟩)

/-! ## Reads -/

/-- A read that is not refused answers, and does nothing else (R37). -/
theorem hostAccess_read {a : HostAction} {s t : State}
    (ha : (∃ r, a = .regRead r) ∨ (∃ k, a = .srcRead k) ∨ ∃ k, a = .dstRead k) (h : hostAccess a s = .next t) :
    ∃ r, t = answer r s := by
  rcases ha with ⟨r, rfl⟩ | ⟨k, rfl⟩ | ⟨k, rfl⟩ <;> simp only [hostAccess] at h
  case inl =>
    cases h
    exact ⟨_, rfl⟩
  all_goals
    split at h <;> cases h
    exact ⟨_, rfl⟩

/-- Settles O40: the host's turn ends with the answer, which writes the model's record of it alone. -/
theorem readsHaveNoSideEffect : Obligations.ReadsHaveNoSideEffect := by
  intro s t a rest hmoves ha hs
  rw [step_host hmoves] at hs
  obtain ⟨r, rfl⟩ := hostAccess_read ha hs
  rfl

/-! ## What stops a step -/

theorem execCtrl_answers (w : Word) (s : State) : ∃ t, exec (decodeCtrl w) s = .next t := by
  rcases execCtrl_cases w s with ⟨-, h⟩ | ⟨-, -, m, h⟩ | ⟨-, -, h⟩ | ⟨-, -, h⟩ <;> exact ⟨_, h⟩

/-- The action `a` accesses SRC or DST at an index the configuration `c` does not have (R31). -/
def ReachesOutside (c : Config) (a : HostAction) : Prop :=
  ∃ k b, (a = .srcRead k ∨ a = .srcWrite k b) ∧ c.srcCap ≤ k ∨ (a = .dstRead k ∨ a = .dstWrite k b) ∧ c.dstCap ≤ k

theorem reachesOutside_src {c : Config} {a : HostAction} {k : Nat} (ha : a = .srcRead k ∨ ∃ b, a = .srcWrite k b)
    (hk : c.srcCap ≤ k) : ReachesOutside c a := by
  rcases ha with hread | ⟨b, hwrite⟩
  · exact ⟨k, 0, .inl ⟨.inl hread, hk⟩⟩
  · exact ⟨k, b, .inl ⟨.inr hwrite, hk⟩⟩

theorem reachesOutside_dst {c : Config} {a : HostAction} {k : Nat} (ha : a = .dstRead k ∨ ∃ b, a = .dstWrite k b)
    (hk : c.dstCap ≤ k) : ReachesOutside c a := by
  rcases ha with hread | ⟨b, hwrite⟩
  · exact ⟨k, 0, .inr ⟨.inl hread, hk⟩⟩
  · exact ⟨k, b, .inr ⟨.inr hwrite, hk⟩⟩

/-- A host action is refused only outside the buffers, and everything else it does is a next state. -/
theorem hostAccess_answers_or_outside (a : HostAction) (s : State) :
    (∃ t, hostAccess a s = .next t) ∨ (∃ r, hostAccess a s = .refused r) ∧ ReachesOutside s.cfg a := by
  rcases hostAccess_cases a s with ⟨k, ha, hk, h⟩ | ⟨k, ha, hk, h⟩ | ⟨r, -, h⟩ | ⟨w, -, h⟩ | ⟨w, -, h⟩ |
    ⟨k, w, -, -, -, h⟩ | ⟨k, b, -, -, h⟩ | ⟨k, b, -, -, h⟩ | ⟨-, h⟩
  · exact .inr ⟨⟨_, h⟩, reachesOutside_src ha hk⟩
  · exact .inr ⟨⟨_, h⟩, reachesOutside_dst ha hk⟩
  case inr.inr.inr.inl => exact .inl (h ▸ execCtrl_answers w s)
  all_goals exact .inl ⟨_, h⟩

/-- Under the invariant the engine's turn always answers: its cursor never lies past the input's end (R13, R15). -/
theorem engineTurn_answers {s : State} (h : Inv s) : ∃ t, engineTurn s = .next t := by
  by_cases hidle : s.phase = .idle
  · exact ⟨s, engineTurn_idle hidle⟩
  · obtain ⟨t, ht, -⟩ := engineTurn_endsOrGoesOn h hidle
    exact ⟨t, ht⟩

/-- Under the invariant a step answers a next state, or the host's action reaches outside a buffer and is refused. -/
theorem step_answers_or_outside {s : State} (h : Inv s) :
    (∃ t, step s = .next t) ∨
    (∃ r, step s = .refused r) ∧ ∃ a rest, HostMoves s a rest ∧ ReachesOutside s.cfg a := by
  rcases step_cases s with ⟨hbad, -⟩ | ⟨-, hs⟩ | ⟨a, rest, hmoves, hs⟩ | ⟨-, -, -, hs⟩ | ⟨-, -, hs⟩
  · simp [h.config] at hbad
  · exact .inl (hs ▸ engineTurn_answers (inv_takeTurn h))
  · rw [hs]
    exact (hostAccess_answers_or_outside a (hostTook s rest)).imp_right
      fun ⟨hrefused, hout⟩ => ⟨hrefused, a, rest, hmoves, hout⟩
  · exact .inl ⟨_, hs⟩
  · exact .inl ⟨_, hs⟩

/-- Settles O49, by who moves: under the invariant the engine's turn answers, and so does every host action inside the
buffers. -/
theorem noStopButOutsideAccess : Obligations.NoStopButOutsideAccess := by
  intro s h
  rcases step_answers_or_outside h with ⟨t, hs⟩ | ⟨⟨r, hs⟩, a, rest, hmoves, k, b, hout⟩
  · simp [hs]
  · exact ⟨fun f hf => by simp [hs] at hf, fun _ _ => ⟨a, rest, k, b, hmoves, hout⟩⟩

end Sys2Proof.Machine
end

section
/-! The obligations of 30_encoding.md: a token and its bytes give each other back (R52 to R56), every byte value begins a
token (R49, R54), and the two low bits of a CTRL write select the command (R59). -/

namespace Sys2Proof.Machine

/-! ## From a token to its bytes and back -/

/-- A serialized LIT, whatever follows it, decodes to its payload (R56). -/
theorem decodeToken_serLit {payload : List Byte} (rest : List Byte) (h : payload.length ≤ 127) :
    decodeToken (serLit payload ++ rest) = .ok (.lit payload, rest) := by
  have hcount : (BitVec.ofNat 8 payload.length : Byte).toNat = payload.length := by
    rw [BitVec.toNat_ofNat]
    omega
  rw [serLit, List.cons_append, decodeToken_lit _ _ (by omega), hcount]
  simp

/-- The two bytes of a serialized BREF, as `serBref_toNat` gives them (R53). -/
theorem serBref_eq_pair {d l : Nat} (hd : d ≤ 2047) (h1 : 1 ≤ l) (h16 : l ≤ 16) :
    ∃ b0 b1, serBref d l = [b0, b1] ∧ b0.toNat = 128 + d / 16 ∧ b1.toNat = d % 16 * 16 + (l - 1) := by
  have hbytes := serBref_toNat d l hd h1 h16
  exact ⟨_, _, rfl, by simpa [serBref] using hbytes⟩

/-- A serialized BREF, whatever follows it, decodes to its distance and length. -/
theorem decodeToken_serBref {d l : Nat} (rest : List Byte) (hd : d ≤ 2047) (h1 : 1 ≤ l) (h16 : l ≤ 16) :
    decodeToken (serBref d l ++ rest) = .ok (.bref d l, rest) := by
  obtain ⟨b0, b1, hser, hb0, hb1⟩ := serBref_eq_pair hd h1 h16
  have hdistance : brefDistance b0 b1 = d := by
    rw [brefDistance_eq]
    omega
  have hlength : brefLength b1 = l := by
    rw [brefLength_eq]
    omega
  rw [hser, List.cons_append, List.singleton_append, decodeToken_bref b0 b1 rest (by omega), hdistance, hlength]

/-- Settles O1, by the instruction: the two tokens by their fields, the commands by their CTRL values. -/
theorem decodeEncodeAgree : Obligations.DecodeEncodeAgree := by
  intro i rest hwf
  cases i with
  | lit payload => exact decodeToken_serLit rest (of_decide_eq_true hwf)
  | bref d l =>
    simp only [Instr.wellFormed, Bool.and_eq_true, decide_eq_true_eq] at hwf
    obtain ⟨⟨hd, h1⟩, h16⟩ := hwf
    exact decodeToken_serBref rest hd h1 h16
  | setMode m => cases m <;> rfl
  | startEncode => rfl
  | startDecode => rfl

/-! ## From a token's bytes to the token and back -/

/-- The bytes of a LIT are the serialization of what its count byte counts off. -/
theorem serLit_take {b0 : Byte} {rest : List Byte} (hlen : b0.toNat ≤ rest.length) :
    serLit (rest.take b0.toNat) = b0 :: rest.take b0.toNat := by
  simp [serLit, hlen]

/-- The two bytes of a BREF are the serialization of their own fields (R53, R54). -/
theorem serBref_fields {b0 : Byte} (b1 : Byte) (h : 128 ≤ b0.toNat) :
    serBref (brefDistance b0 b1) (brefLength b1) = [b0, b1] := by
  have hlt0 := b0.isLt
  have hlt1 := b1.isLt
  have hd := brefDistance_eq b0 b1
  have hl := brefLength_eq b1
  obtain ⟨c0, c1, hser, hc0, hc1⟩ :=
    serBref_eq_pair (d := brefDistance b0 b1) (l := brefLength b1) (by omega) (by omega) (by omega)
  have h0 : c0 = b0 := BitVec.eq_of_toNat_eq (by omega)
  have h1 : c1 = b1 := BitVec.eq_of_toNat_eq (by omega)
  rw [hser, h0, h1]

/-- The bytes a token was read from are its serialization and the rest (R52, R53). -/
theorem decodeToken_ok_bytes {bs rest : List Byte} {i : Instr} (h : decodeToken bs = .ok (i, rest)) :
    (∃ payload, i = .lit payload ∧ bs = serLit payload ++ rest) ∨ ∃ d l, i = .bref d l ∧ bs = serBref d l ++ rest := by
  rcases bs with _ | ⟨b0, bs⟩
  · cases h
  · rcases Nat.lt_or_ge b0.toNat 128 with hlit | hbref
    · rw [decodeToken_lit b0 bs hlit] at h
      split at h
      · cases h
      next hlen =>
        cases h
        refine .inl ⟨_, rfl, ?_⟩
        rw [serLit_take (Nat.le_of_not_lt hlen), List.cons_append, List.take_append_drop]
    · rcases bs with _ | ⟨b1, bs⟩
      · rw [decodeToken_bref_alone b0 hbref] at h
        cases h
      · rw [decodeToken_bref b0 b1 bs hbref] at h
        cases h
        refine .inr ⟨_, _, rfl, ?_⟩
        rw [serBref_fields b1 hbref, List.cons_append, List.singleton_append]

/-- The decoder reads no token outside the ranges of the formats (R50, R51). -/
theorem decodeToken_wellFormed {bs rest : List Byte} {i : Instr} (h : decodeToken bs = .ok (i, rest)) :
    i.wellFormed = true := by
  rcases decodeToken_ok h with ⟨payload, rfl, hlen⟩ | ⟨d, l, rfl, hd, h1, h16⟩
  · simpa [Instr.wellFormed] using hlen
  · simp [Instr.wellFormed, hd, h1, h16]

/-- Settles O2, by the kind of token: its serialization has the size `Laws.EncodedSize` gives. -/
theorem decodedTokenReencodes : Obligations.DecodedTokenReencodes := by
  intro bs i rest h
  have hwf := decodeToken_wellFormed h
  refine ⟨hwf, ?_⟩
  rcases decodeToken_ok_bytes h with ⟨payload, rfl, rfl⟩ | ⟨d, l, rfl, rfl⟩
  · obtain ⟨hsize, -⟩ := Laws.EncodedSize.lit payload hwf
    exact ⟨_, rfl, rfl, hsize⟩
  · obtain ⟨hsize, -⟩ := Laws.EncodedSize.bref d l hwf
    exact ⟨_, rfl, rfl, hsize⟩

/-! ## The first byte -/

/-- Bit 7 is clear exactly in 0x00 to 0x7F (R49). -/
theorem tagBit_eq_false_iff (b0 : Byte) : tagBit b0 = false ↔ b0.toNat ≤ 0x7F := by
  rw [tagBit_eq, decide_eq_false_iff_not]
  omega

/-- Bit 7 is set exactly in 0x80 to 0xFF (R49). -/
theorem tagBit_eq_true_iff (b0 : Byte) : tagBit b0 = true ↔ 0x80 ≤ b0.toNat := by
  rw [tagBit_eq, decide_eq_true_iff]

/-- Settles O3, by the tag bit. -/
theorem everyByteBeginsAToken : Obligations.EveryByteBeginsAToken := by
  intro b0 rest
  refine ⟨tagBit_eq_false_iff b0, fun htag hlen => ?_, fun htag b1 rest' hrest => ?_⟩
  · have hlit := (tagBit_eq_false_iff b0).1 htag
    rw [decodeToken_lit b0 rest (by omega), if_neg (Nat.not_lt.2 hlen)]
  · subst hrest
    rw [decodeToken_bref b0 b1 rest' ((tagBit_eq_true_iff b0).1 htag), brefDistance_eq, brefLength_eq]

/-! ## CTRL writes -/

/-- A bit inside the mask is the bit of the value the mask is matched against. -/
theorem getLsbD_of_and_eq {w m v : Word} (h : w &&& m = v) (k : Nat) (hk : m.getLsbD k = true) :
    w.getLsbD k = v.getLsbD k := by
  rw [← h, BitVec.getLsbD_and, hk, Bool.and_true]

/-- A CTRL write with bit 0 clear is SET_MODE of its bit 1 (R59). -/
theorem decodeCtrl_setMode {w : Word} (h0 : w.getLsbD 0 = false) :
    decodeCtrl w = .setMode (if w.getLsbD 1 then .decode else .encode) := by
  rw [decodeCtrl, h0]
  cases w.getLsbD 1 <;> rfl

/-- A CTRL write with bit 0 set and bit 1 clear is START_ENCODE (R59). -/
theorem decodeCtrl_startEncode {w : Word} (h0 : w.getLsbD 0 = true) (h1 : w.getLsbD 1 = false) :
    decodeCtrl w = .startEncode := by
  rw [decodeCtrl, h0, h1]

/-- A CTRL write with bits 0 and 1 set is START_DECODE (R59). -/
theorem decodeCtrl_startDecode {w : Word} (h0 : w.getLsbD 0 = true) (h1 : w.getLsbD 1 = true) :
    decodeCtrl w = .startDecode := by
  rw [decodeCtrl, h0, h1]

/-- Settles O4: each match/mask pair fixes the bits that select the command, and SET_MODE's leaves bit 1 to the mode. -/
theorem controlWordDecodes : Obligations.ControlWordDecodes := by
  intro w
  refine ⟨fun h => ?_, fun h => ?_, fun h => ?_⟩
  · exact decodeCtrl_setMode (getLsbD_of_and_eq h 0 rfl)
  · exact decodeCtrl_startEncode (getLsbD_of_and_eq h 0 rfl) (getLsbD_of_and_eq h 1 rfl)
  · exact decodeCtrl_startDecode (getLsbD_of_and_eq h 0 rfl) (getLsbD_of_and_eq h 1 rfl)

/-- Settles O5, by evaluating the decoder on each of the written words. -/
theorem writtenWordsDecode : Obligations.WrittenWordsDecode := by
  unfold Obligations.WrittenWordsDecode
  decide

end Sys2Proof.Machine
end

section
/-! The obligations of 40_match_finder.md: the match is the longest and the nearest one, within its bounds, and a function
of the window and the next 16 bytes. -/

namespace Sys2Proof.Machine

/-! ## The match is the longest and the nearest -/

/-- Occurrence is monotone in the length (R68): what matches at `k` bytes matches at every shorter length. -/
theorem occursAt_of_le {overlap : Bool} {S : List Byte} {i l k j : Nat} (hle : l ≤ k) :
    occursAt overlap S i k j = true → occursAt overlap S i l j = true := by
  induction hle with
  | refl => exact id
  | step _ ih => exact fun h => ih (occursAt_of_succ h)

/-- The search below the cursor misses no position: no source lies at or past the cursor. -/
theorem nearest_cursor_eq_none {overlap : Bool} {S : List Byte} {i k : Nat} (hk : 0 < k) :
    nearest overlap S i k i = none ↔ ∀ j, occursAt overlap S i k j = false := by
  rw [nearest_eq_none]
  refine ⟨fun h j => ?_, fun h j _ => h j⟩
  by_contra hocc
  have hocc := Bool.eq_true_of_not_eq_false hocc
  simp [h j (occursAt_lt hk hocc)] at hocc

/-- A match is the nearest occurrence of its length (R66), and 16 bytes long, or up to the end of the input, or the next
length does not occur (R65). -/
theorem matchFind_some_nearest {overlap : Bool} {S : List Byte} {i d l : Nat}
    (h : matchFind overlap S i = some (d, l)) :
    nearest overlap S i l i = some (i - d) ∧
      (l = 16 ∨ S.length < i + (l + 1) ∨ nearest overlap S i (l + 1) i = none) := by
  rcases matchFind_cases overlap S i with ⟨hnone, -⟩ | ⟨l', j, -, -, -, hnear, hsome, hstop⟩
  · cases h.symm.trans hnone
  · cases h.symm.trans hsome
    obtain ⟨hj, -⟩ := nearest_eq_some.1 hnear
    rw [Nat.sub_sub_self hj.le]
    exact ⟨hnear, hstop⟩

/-- The match finder answers none only where fewer than 3 bytes remain or no position matches at length 3. -/
theorem matchFind_none {overlap : Bool} {S : List Byte} {i : Nat} (h : matchFind overlap S i = none) :
    S.length < i + 3 ∨ ∀ j, occursAt overlap S i 3 j = false := by
  rcases matchFind_cases overlap S i with ⟨-, hshort | hnone⟩ | ⟨l, j, -, -, -, -, hsome, -⟩
  · exact .inl hshort
  · exact .inr ((nearest_cursor_eq_none (by omega)).1 hnone)
  · cases h.symm.trans hsome

/-- Settles O21: the loop stops at the first length that does not occur, and then no longer one does. -/
theorem matchIsLongest : Obligations.MatchIsLongest := by
  intro overlap S i
  refine ⟨fun d l h => ?_, matchFind_none⟩
  obtain ⟨hnear, hstop⟩ := matchFind_some_nearest h
  obtain ⟨-, hocc, -⟩ := nearest_eq_some.1 hnear
  refine ⟨⟨i - d, hocc⟩, fun k hlk hk hin j => ?_⟩
  rcases hstop with h16 | hend | hnone
  · omega
  · omega
  · have hnext := (nearest_cursor_eq_none (by omega)).1 hnone j
    exact Bool.eq_false_of_not_eq_true fun hk' => by simp [occursAt_of_le hlk hk'] at hnext

/-- Settles O22: every source lies below the cursor, where the search took the greatest. -/
theorem matchIsNearest : Obligations.MatchIsNearest := by
  intro overlap S i d l h
  obtain ⟨hl3, -, -, -, hdi, -⟩ := matchFind_some h
  obtain ⟨-, hocc, hlater⟩ := nearest_eq_some.1 (matchFind_some_nearest h).1
  refine ⟨hdi, hocc, fun j hj => ?_⟩
  by_contra hgt
  simp [hlater j (by omega) (occursAt_lt (by omega) hj)] at hj

/-! ## The bounds of a match -/

/-- Under R62's reading a copy source ends at the cursor or before it, so it is at least a match's length away (R69). -/
theorem matchFind_length_le_distance {S : List Byte} {i d l : Nat} (h : matchFind false S i = some (d, l)) :
    l ≤ d := by
  obtain ⟨-, -, -, -, hdi, -, -, hocc⟩ := matchFind_some h
  obtain ⟨-, hend, -⟩ := (occursAt_iff ..).1 hocc
  have hend : i - d + l ≤ i := by simpa using hend
  omega

/-- Settles O23: `3 ≤ l ≤ d ≤ i` leaves no match below cursor 3. -/
theorem matchBounds : Obligations.MatchBounds := by
  intro S i _
  have bounds : ∀ d l, matchFind false S i = some (d, l) →
      3 ≤ l ∧ l ≤ 16 ∧ i + l ≤ S.length ∧ l ≤ d ∧ d ≤ min i 2047 ∧ l ≤ i := by
    intro d l h
    obtain ⟨hl3, hl16, hin, -, hdi, hd, -⟩ := matchFind_some h
    have hld := matchFind_length_le_distance h
    exact ⟨hl3, hl16, hin, hld, le_min hdi hd, hld.trans hdi⟩
  refine ⟨bounds, fun hi => Option.eq_none_iff_forall_ne_some.2 fun ⟨d, l⟩ h => ?_⟩
  obtain ⟨hl3, -, -, -, -, hli⟩ := bounds d l h
  omega

/-! ## What the match finder reads -/

/-- The search depends on the input only through where length `k` occurs. -/
theorem nearest_congr {overlap : Bool} {S T : List Byte} {i k : Nat}
    (h : ∀ j, occursAt overlap S i k j = occursAt overlap T i k j) (bound : Nat) :
    nearest overlap S i k bound = nearest overlap T i k bound := by
  induction bound with
  | zero => rfl
  | succ j ih => rw [nearest, nearest, h j, ih]

section
variable {overlap : Bool} {S T : List Byte} {i : Nat}
  (hwin : ∀ k, windowLow i ≤ k → k < min S.length (i + 16) → S[k]? = T[k]?)
include hwin

/-- Inputs that agree on the window and the next 16 bytes have the same occurrences of every candidate length (R71): a
source and the bytes it is compared with both lie in that range. -/
theorem occursAt_congr {k : Nat} (hk : k ≤ 16) (hin : i + k ≤ S.length) (j : Nat) :
    occursAt overlap S i k j = occursAt overlap T i k j := by
  have slices_agree : ∀ a, windowLow i ≤ a → a ≤ i → slice S a (a + k) = slice T a (a + k) := fun a hlo hhi =>
    (slice_eq_iff ..).2 fun t ht => hwin (a + t) (by omega) (by omega)
  rw [Bool.eq_iff_iff, occursAt_iff, occursAt_iff]
  refine and_congr_right fun hlo => and_congr_right fun hbefore => ?_
  have hj : j ≤ i := by
    split at hbefore <;> omega
  rw [slices_agree j hlo hj, slices_agree i (Nat.sub_le ..) le_rfl]

variable (hlen : S.length = T.length)
include hlen

theorem searchFrom_congr (fuel k : Nat) (best : Option (Nat × Nat)) (hrounds : k + fuel ≤ 17) :
    searchFrom overlap S i fuel k best = searchFrom overlap T i fuel k best := by
  induction fuel generalizing k best with
  | zero => rfl
  | succ fuel ih =>
    rw [searchFrom, searchFrom, ← hlen]
    by_cases hin : i + k ≤ S.length
    · rw [if_pos hin, if_pos hin, nearest_congr (occursAt_congr hwin (by omega) hin)]
      cases nearest overlap T i k i with
      | none => rfl
      | some j => exact ih (k + 1) _ (by omega)
    · rw [if_neg hin, if_neg hin]

end

/-- Settles O24: the loop's bounds depend on the length alone, and its 14 rounds try no length above 16. -/
theorem matchDependsOnlyOnWindow : Obligations.MatchDependsOnlyOnWindow := by
  intro overlap S T i hlen hwin
  rw [matchFind, matchFind, ← hlen, searchFrom_congr hwin hlen _ _ _ (by decide)]

end Sys2Proof.Machine
end

section
/-! The obligations of 41_encoder.md: what each step of an encode does, that it never fails and computes ENCODE under any
schedule, and what the tokens of ENCODE are and how many bytes they take. -/

namespace Sys2Proof.Machine

/-! ## The loop of ENCODE

One equation for each kind of round, and the induction the facts about its output share. -/

theorem encodeFrom_end {overlap : Bool} {S : List Byte} {fuel i : Nat} {lb : List Byte} (hi : S.length ≤ i) :
    encodeFrom overlap S fuel i lb = litIfAny lb := by
  cases fuel with
  | zero => rfl
  | succ fuel => rw [encodeFrom, if_neg (Nat.not_lt.2 hi)]

section
variable {overlap : Bool} {S : List Byte} {fuel i : Nat} {lb : List Byte} (hi : i < S.length)
include hi

theorem encodeFrom_match {d l : Nat} (hm : matchFind overlap S i = some (d, l)) :
    encodeFrom overlap S (fuel + 1) i lb = litIfAny lb ++ serBref d l ++ encodeFrom overlap S fuel (i + l) [] := by
  rw [encodeFrom, if_pos hi, hm]

theorem encodeFrom_full (hm : matchFind overlap S i = none) (hfull : lb.length + 1 = 127) :
    encodeFrom overlap S (fuel + 1) i lb =
      serLit (lb ++ [S.getD i 0]) ++ encodeFrom overlap S fuel (i + 1) [] := by
  rw [encodeFrom, if_pos hi, hm]
  exact if_pos hfull

theorem encodeFrom_room (hm : matchFind overlap S i = none) (hroom : lb.length + 1 < 127) :
    encodeFrom overlap S (fuel + 1) i lb = encodeFrom overlap S fuel (i + 1) (lb ++ [S.getD i 0]) := by
  rw [encodeFrom, if_pos hi, hm]
  exact if_neg hroom.ne

end

/-- Induction over the loop of ENCODE (R79): a relation of cursor, pending run and the bytes still emitted holds of every
run of at most 126 bytes, if the loop's end and each kind of round give it. -/
theorem encodeFrom_induction {overlap : Bool} {S : List Byte} {P : Nat → List Byte → List Byte → Prop}
    (done : ∀ i lb, S.length ≤ i → lb.length ≤ 126 → P i lb (litIfAny lb))
    (found : ∀ i lb d l out, matchFind overlap S i = some (d, l) → lb.length ≤ 126 → P (i + l) [] out →
      P i lb (litIfAny lb ++ serBref d l ++ out))
    (full : ∀ i lb out, i < S.length → lb.length = 126 → P (i + 1) [] out →
      P i lb (serLit (lb ++ [S.getD i 0]) ++ out))
    (room : ∀ i lb out, i < S.length → P (i + 1) (lb ++ [S.getD i 0]) out → P i lb out)
    {fuel i : Nat} {lb : List Byte} (henough : S.length ≤ i + fuel) (hlb : lb.length ≤ 126) :
    P i lb (encodeFrom overlap S fuel i lb) := by
  induction fuel generalizing i lb with
  | zero => exact done i lb henough hlb
  | succ fuel ih =>
    rcases Nat.lt_or_ge i S.length with hi | hend
    · rcases hm : matchFind overlap S i with _ | ⟨d, l⟩
      · rcases Nat.lt_or_ge (lb.length + 1) 127 with hroom | hfull
        · rw [encodeFrom_room hi hm hroom]
          exact room i lb _ hi (ih (by omega) (by simp; omega))
        · rw [encodeFrom_full hi hm (by omega)]
          exact full i lb _ hi (by omega) (ih (by omega) (by simp))
      · have hl3 := (matchFind_some hm).1
        rw [encodeFrom_match hi hm]
        exact found i lb d l _ hm hlb (ih (by omega) (by simp))
    · rw [encodeFrom_end hend]
      exact done i lb hend hlb

/-! ## The expansion bound (R84) -/

/-- What the loop still emits: a full run spends 128 bytes on 127, a match with the run before it at most 128 for each 127
bytes they stand for, and the last run one byte more than it holds. -/
theorem encodeFrom_length {overlap : Bool} {S : List Byte} {fuel i : Nat} {lb : List Byte}
    (henough : S.length ≤ i + fuel) (hlb : lb.length ≤ 126) :
    127 * (encodeFrom overlap S fuel i lb).length ≤ 128 * (S.length - i) + 128 * lb.length + 126 := by
  refine encodeFrom_induction
    (P := fun i lb out => 127 * out.length ≤ 128 * (S.length - i) + 128 * lb.length + 126)
    ?done ?found ?full ?room henough hlb
  case done =>
    intro i lb _ _
    rw [litIfAny_length]
    split
    · omega
    next hne =>
      have := List.length_pos_iff.2 hne
      omega
  case found =>
    intro i lb d l out hm _ ih
    obtain ⟨hl3, -, hin, -⟩ := matchFind_some hm
    have hrun := litIfAny_length_le lb
    simp only [List.length_append, serBref_length, List.length_nil] at ih ⊢
    omega
  case full =>
    intro i lb out hi hlen ih
    simp only [List.length_append, serLit_length, List.length_singleton, List.length_nil, hlen] at ih ⊢
    omega
  case room =>
    intro i lb out hi ih
    simp only [List.length_append, List.length_singleton] at ih
    omega

/-- Settles O31: the bound of the whole loop, from cursor 0 with nothing pending. -/
theorem encodeExpansionBound : Obligations.EncodeExpansionBound := by
  intro overlap S
  have h := encodeFrom_length (overlap := overlap) (S := S) (fuel := S.length) (i := 0) (lb := []) (by omega) (by simp)
  rw [List.length_nil] at h
  rw [encodeBytes]
  omega

/-! ## The tokens of ENCODE (R82, R83) -/

/-- The tokens of a pending run: none, or its LIT. -/
def litTokens (lb : List Byte) : List Instr := if lb = [] then [] else [.lit lb]

/-- `out` is the serialization of the tokens `ts`, each within R82's bounds and in R83's order. -/
structure EncodedAs (ts : List Instr) (out : List Byte) : Prop where
  serializes : Serializes ts out
  emittable : ∀ i ∈ ts, Emittable i
  chain : ts.IsChain fun a b => ShortLit a → IsBref b

theorem encodedAs_nil : EncodedAs [] [] := ⟨rfl, by simp, .nil⟩

/-- A BREF within the bounds may stand before any tokens. -/
theorem EncodedAs.bref {ts : List Instr} {out : List Byte} {d l : Nat} (h : EncodedAs ts out)
    (hd : Emittable (.bref d l)) : EncodedAs (.bref d l :: ts) (serBref d l ++ out) where
  serializes := ⟨_, out, rfl, rfl, h.serializes⟩
  emittable := List.forall_mem_cons.2 ⟨hd, h.emittable⟩
  chain := List.isChain_cons.2 ⟨fun _ _ hshort => hshort.elim, h.chain⟩

/-- A LIT within the bounds may stand before any tokens if it is full, and else before a BREF or last. -/
theorem EncodedAs.lit {ts : List Instr} {out payload : List Byte} (h : EncodedAs ts out)
    (hlen : Emittable (.lit payload)) (hnext : payload.length < 127 → ∀ b ∈ ts.head?, IsBref b) :
    EncodedAs (.lit payload :: ts) (serLit payload ++ out) where
  serializes := ⟨_, out, rfl, rfl, h.serializes⟩
  emittable := List.forall_mem_cons.2 ⟨hlen, h.emittable⟩
  chain := List.isChain_cons.2 ⟨fun b hb hshort => hnext hshort b hb, h.chain⟩

/-- A pending run may be flushed before a BREF or at the end. -/
theorem EncodedAs.flushed {ts : List Instr} {out lb : List Byte} (h : EncodedAs ts out) (hlb : lb.length ≤ 126)
    (hnext : ∀ b ∈ ts.head?, IsBref b) : EncodedAs (litTokens lb ++ ts) (litIfAny lb ++ out) := by
  unfold litTokens litIfAny
  split
  · exact h
  next hne =>
    exact h.lit ⟨List.length_pos_iff.2 hne, by omega⟩ fun _ => hnext

/-- A match is within the bounds of R82, under R62's reading (R69). -/
theorem matchFind_emittable {S : List Byte} {i d l : Nat} (h : matchFind false S i = some (d, l)) :
    Emittable (.bref d l) := by
  obtain ⟨hl3, hl16, -, -, -, hd, -⟩ := matchFind_some h
  exact ⟨hl3, hl16, matchFind_length_le_distance h, hd⟩

/-- The first token is a LIT that begins with the first bytes of `S` (R83). -/
def BeginsWithLit (S : List Byte) (ts : List Instr) : Prop :=
  ∃ payload ts', ts = .lit payload :: ts' ∧ S.take 3 <+: payload

/-- A run that holds `S` up to a cursor at 3 or later, or at the end, begins with the first bytes of `S`. -/
theorem beginsWithLit_take {S : List Byte} {i : Nat} (hi : 3 ≤ i ∨ S.length ≤ i) (ts : List Instr) :
    BeginsWithLit S (.lit (S.take i) :: ts) := by
  refine ⟨_, ts, rfl, ?_⟩
  rcases hi with h3 | hend
  · exact List.take_prefix_take_left h3
  · rw [List.take_of_length_le hend]
    exact List.take_prefix 3 S

theorem litTokens_take {S : List Byte} {i : Nat} (hS : S ≠ []) (hi : 3 ≤ i ∨ S.length ≤ i) :
    litTokens (S.take i) = [.lit (S.take i)] := by
  have := List.length_pos_iff.2 hS
  exact if_neg (by simp [hS]; omega)

theorem take_append_getD {S : List Byte} {i : Nat} (hi : i < S.length) :
    S.take i ++ [S.getD i 0] = S.take (i + 1) := by
  rw [List.take_succ_eq_append_getElem hi, List.getD_eq_getElem _ _ hi]

/-- `out`, emitted from cursor `i` with the pending run `lb`, is a token sequence, whose first token is a LIT of the first
bytes of `S` if the run holds all of `S` before the cursor. -/
def TokenizedFrom (S : List Byte) (i : Nat) (lb out : List Byte) : Prop :=
  ∃ ts, EncodedAs ts out ∧ (S ≠ [] → lb = S.take i → BeginsWithLit S ts)

theorem encodeFrom_tokenized {S : List Byte} {fuel i : Nat} {lb : List Byte} (henough : S.length ≤ i + fuel)
    (hlb : lb.length ≤ 126) :
    TokenizedFrom S i lb (encodeFrom false S fuel i lb) := by
  refine encodeFrom_induction (P := TokenizedFrom S) ?done ?found ?full ?room henough hlb
  case done =>
    intro i lb hend hlb
    refine ⟨litTokens lb ++ [], by simpa using encodedAs_nil.flushed hlb (by simp), ?_⟩
    rintro hS rfl
    rw [litTokens_take hS (.inr hend)]
    exact beginsWithLit_take (.inr hend) []
  case found =>
    rintro i lb d l out hm hlb ⟨ts, hts, -⟩
    have hbref := matchFind_emittable hm
    obtain ⟨hl3, -, -, -, hdi, -⟩ := matchFind_some hm
    refine ⟨litTokens lb ++ .bref d l :: ts, ?_, ?_⟩
    · rw [List.append_assoc]
      exact (hts.bref hbref).flushed hlb (by simp [IsBref])
    · rintro hS rfl
      have hi : 3 ≤ i := (hl3.trans (matchFind_length_le_distance hm)).trans hdi
      rw [litTokens_take hS (.inl hi)]
      exact beginsWithLit_take (.inl hi) _
  case full =>
    rintro i lb out hi hlen ⟨ts, hts, -⟩
    refine ⟨.lit (lb ++ [S.getD i 0]) :: ts, hts.lit (by simp [Emittable, hlen]) (by simp [hlen]), ?_⟩
    rintro - rfl
    rw [List.length_take] at hlen
    rw [take_append_getD hi]
    exact beginsWithLit_take (.inl (by omega)) ts
  case room =>
    rintro i lb out hi ⟨ts, hts, hfirst⟩
    refine ⟨ts, hts, ?_⟩
    rintro hS rfl
    exact hfirst hS (take_append_getD hi)

/-- Settles O33: the tokens of the whole loop, from cursor 0, where the empty run is `S` before the cursor. -/
theorem encodeTokenOrder : Obligations.EncodeTokenOrder := by
  intro S
  obtain ⟨ts, hts, hfirst⟩ := encodeFrom_tokenized (S := S) (fuel := S.length) (i := 0) (lb := []) (by omega) (by simp)
  exact ⟨ts, hts.serializes, hts.emittable, hts.chain, fun hS => hfirst hS rfl⟩

/-- Settles O32: the tokens of O33 are within the bounds. -/
theorem encodeEmitsFieldBounds : Obligations.EncodeEmitsFieldBounds := by
  intro S
  obtain ⟨ts, hser, hbounds, -⟩ := encodeTokenOrder S
  exact ⟨ts, hser, hbounds⟩

/-! ## What a step of an encode does (R73 to R78) -/

theorem step_encode {s : State} (hmoves : EngineMoves s) (henc : s.phase = .enc) : step s = encStep (takeTurn s) := by
  rw [step_engine hmoves, engineTurn, takeTurn_phase, henc]

/-- Appending, read by read (R16, R90). -/
theorem Appended.appendsExactly {s t : State} {bs : List Byte} (ha : Appended s t bs) (hcap : s.cfg.dstCap < 2 ^ 32) :
    AppendsExactly s t bs := by
  have hw : s.olen.toNat + bs.length < 2 ^ 32 := Nat.lt_of_le_of_lt ha.fits hcap
  refine ⟨?_, fun k hk => ?_, fun j hj => ?_⟩
  · rw [ha.olen, appendAll_olen _ _ hw]
  · rw [ha.dst, appendAll_read_new _ _ hw _ hk]
  · rw [ha.dst, appendAll_read_other _ _ hw _ (by omega)]

/-- From `s` to `t` a running encode went on: it appended `bs`, consumed `k` bytes of the input, and left `run` pending. -/
structure EncodesOn (s t : State) (bs run : List Byte) (k : Nat) : Prop where
  appends : AppendsExactly s t bs
  cursor : t.i.toNat = s.i.toNat + k
  inside : t.i.toNat ≤ s.n.toNat
  pending : t.lb.seq = run
  frame : t = { s with i := t.i, lb := t.lb, olen := t.olen, dst := t.dst }

theorem encodesOn_appendAll {s : State} {bs : List Byte} {k : Nat} (lb : LitBuf) (hcap : s.cfg.dstCap < 2 ^ 32)
    (hfit : s.olen.toNat + bs.length ≤ s.cfg.dstCap) (hk : s.i.toNat + k ≤ s.n.toNat) :
    EncodesOn s { s.appendAll bs with i := s.i + BitVec.ofNat 32 k, lb := lb } bs lb.seq k where
  appends := Appended.appendsExactly ⟨rfl, rfl, hfit⟩ hcap
  cursor := word_add_toNat s.i k (by omega)
  inside := (word_add_toNat s.i k (by omega)).trans_le hk
  pending := rfl
  frame := by rw [appendAll_frame]

section
variable {s : State} (h : Inv s) (henc : s.phase = .enc)
include h henc

/-- ENC-STEP on a match (R74). -/
theorem encStep_match {d l : Nat} (hi : s.i.toNat < s.n.toNat)
    (hm : matchFind s.cfg.encOverlapSource s.input s.i.toNat = some (d, l)) :
    ∃ t, encStep s = .next t ∧ EncodesOn s t (litIfAny s.lb.seq ++ serBref d l) [] l := by
  rcases encStep_cases h henc with ⟨hin, -⟩ | ⟨d', l', -, hm', hl, -, hfit, hs⟩ | ⟨-, hm', -⟩ | ⟨-, hm', -⟩
  · exact absurd (congrArg BitVec.toNat hin) hi.ne
  · cases hm.symm.trans hm'
    rw [hs, State.advanceI, appendAll_i, ← s.lb.clear_seq]
    exact ⟨_, rfl, encodesOn_appendAll s.lb.clear h.dstCap_lt hfit hl⟩
  all_goals cases hm.symm.trans hm'

/-- ENC-STEP without a match (R75): the byte joins the run, or fills it. -/
theorem encStep_literal (hi : s.i.toNat < s.n.toNat)
    (hm : matchFind s.cfg.encOverlapSource s.input s.i.toNat = none) :
    (s.lb.seq.length + 1 < 127 ∧ ∃ t, encStep s = .next t ∧ EncodesOn s t [] (s.lb.seq ++ [srcByte s s.i.toNat]) 1) ∨
    (s.lb.seq.length + 1 = 127 ∧
      ∃ t, encStep s = .next t ∧ EncodesOn s t (serLit (s.lb.seq ++ [srcByte s s.i.toNat])) [] 1) := by
  have hrun : s.lb.seq.length = s.lbLen := s.lb.seq_length
  rcases encStep_cases h henc with ⟨hin, -⟩ | ⟨d, l, -, hm', -⟩ | ⟨-, -, hroom, hs⟩ | ⟨-, -, hfull, hfit, hs⟩
  · exact absurd (congrArg BitVec.toNat hin) hi.ne
  · cases hm.symm.trans hm'
  · refine .inl ⟨by omega, _, hs, ?_⟩
    rw [← LitBuf.push_seq _ _ h.lbBound]
    exact encodesOn_appendAll (bs := []) _ h.dstCap_lt h.olenBound hi
  · refine .inr ⟨by omega, _, hs, ?_⟩
    rw [show takeLiteral s = { s with i := (takeLiteral s).i, lb := (takeLiteral s).lb } from rfl, appendAll_encoder,
      ← (takeLiteral s).lb.clear_seq]
    exact encodesOn_appendAll _ h.dstCap_lt (by simp [hrun, hfull, hfit]) hi

/-- ENC-STEP at the end of the input (R78). -/
theorem encStep_end (hin : s.i = s.n) :
    s.olen.toNat + (litIfAny s.lb.seq).length ≤ s.cfg.dstCap ∧
      encStep s = .next (complete { s.appendAll (litIfAny s.lb.seq) with lb := s.lb.clear }) := by
  rcases encStep_cases h henc with ⟨-, hend⟩ | ⟨d, l, hi, -⟩ | ⟨hi, -⟩ | ⟨hi, -⟩
  · exact hend
  all_goals exact absurd (congrArg BitVec.toNat hin) hi.ne

end

/-- Settles O25: a match's flush and BREF are one appending. -/
theorem encodeStepOnMatch : Obligations.EncodeStepOnMatch := by
  intro s d l h hmoves henc hi hm
  obtain ⟨t, hs, hon⟩ := encStep_match (inv_takeTurn h) henc hi hm
  exact ⟨t, (step_encode hmoves henc).trans hs, hon.cursor, hon.inside, hon.pending, hon.appends, hon.frame⟩

/-- Settles O26, by whether the byte fills the pending run. -/
theorem encodeStepOnLiteral : Obligations.EncodeStepOnLiteral := by
  intro s h hmoves henc hi hm
  rw [step_encode hmoves henc]
  rcases encStep_literal (inv_takeTurn h) henc hi hm with ⟨hlen, t, hs, hon⟩ | ⟨hlen, t, hs, hon⟩
  · exact ⟨t, hs, hon.cursor, fun _ => ⟨hon.pending, hon.appends⟩, fun hfull => absurd hfull hlen.ne, hon.frame⟩
  · exact ⟨t, hs, hon.cursor, fun hroom => absurd hlen hroom.ne, fun _ => ⟨hon.pending, hon.appends⟩, hon.frame⟩

/-- Completion (R107) keeps the output, the bytes appended last among it, and forgets every other byte of DST. -/
theorem AppendsExactly.read_complete {s u : State} {bs : List Byte} (ha : AppendsExactly s u bs) :
    (∀ j < s.olen.toNat, (complete u).dst.read j = s.dst.read j) ∧
    (∀ (k : Nat) (h : k < bs.length), (complete u).dst.read (s.olen.toNat + k) = some bs[k]) ∧
    ∀ j, u.olen.toNat ≤ j → (complete u).dst.read j = none := by
  obtain ⟨holen, hnew, hother⟩ := ha
  simp only [complete_dst, Memory.read_below]
  refine ⟨fun j hj => ?_, fun k hk => ?_, fun j hj => if_neg (Nat.not_lt.2 hj)⟩
  · rw [if_pos (by omega), hother j (.inl hj)]
  · rw [if_pos (by omega), hnew k hk]

/-- Settles O27, by what completion keeps of the DST that the last flush leaves. -/
theorem encodeStepAtEnd : Obligations.EncodeStepAtEnd := by
  rintro s bs h hmoves henc hin rfl
  obtain ⟨hfit, hs⟩ := encStep_end (inv_takeTurn h) henc hin
  have happ : AppendsExactly (takeTurn s) { (takeTurn s).appendAll (litIfAny s.lb.seq) with lb := s.lb.clear }
    (litIfAny s.lb.seq) := Appended.appendsExactly ⟨rfl, rfl, hfit⟩ h.dstCap_lt
  obtain ⟨hold, hnew, hpast⟩ := happ.read_complete
  refine ⟨_, (step_encode hmoves henc).trans hs, rfl, rfl, s.lb.clear_seq, happ.1, rfl, hold, hnew, hpast, ?_⟩
  rw [appendAll_frame]
  rfl

/-! ## An encode advances and does not fail (R80, R85) -/

/-- Before the end of the input a step goes on, consumes input, and emits what ENCODE's next round emits (R79). -/
theorem encStep_goes_on {s : State} (h : Inv s) (henc : s.phase = .enc) (hi : s.i.toNat < s.n.toNat) :
    ∃ t bs run k, encStep s = .next t ∧ EncodesOn s t bs run k ∧ 0 < k ∧
      encodeFrom s.cfg.encOverlapSource s.input (s.n.toNat - s.i.toNat) s.i.toNat s.lb.seq =
        bs ++ encodeFrom s.cfg.encOverlapSource s.input (s.n.toNat - (s.i.toNat + k)) (s.i.toNat + k) run := by
  have hin : s.i.toNat < s.input.length := by rwa [input_length]
  obtain ⟨fuel, hfuel⟩ : ∃ fuel, s.n.toNat - s.i.toNat = fuel + 1 := ⟨s.n.toNat - s.i.toNat - 1, by omega⟩
  have hrest : ∀ k lb, 0 < k → encodeFrom s.cfg.encOverlapSource s.input fuel (s.i.toNat + k) lb =
      encodeFrom s.cfg.encOverlapSource s.input (s.n.toNat - (s.i.toNat + k)) (s.i.toNat + k) lb := by
    intro k lb hk
    rw [encodeFrom_enough _ _ _ _ _ (by rw [input_length]; omega), input_length]
  rw [hfuel]
  rcases hm : matchFind s.cfg.encOverlapSource s.input s.i.toNat with _ | ⟨d, l⟩
  · have hbyte : s.input.getD s.i.toNat 0 = srcByte s s.i.toNat := input_getD hi
    rcases encStep_literal h henc hi hm with ⟨hlen, t, hs, hon⟩ | ⟨hlen, t, hs, hon⟩
    · refine ⟨t, _, _, _, hs, hon, one_pos, ?_⟩
      rw [encodeFrom_room hin hm hlen, hbyte, hrest _ _ one_pos, List.nil_append]
    · refine ⟨t, _, _, _, hs, hon, one_pos, ?_⟩
      rw [encodeFrom_full hin hm hlen, hbyte, hrest _ _ one_pos]
  · obtain ⟨hl3, -⟩ := matchFind_some hm
    obtain ⟨t, hs, hon⟩ := encStep_match h henc hi hm
    refine ⟨t, _, _, _, hs, hon, by omega, ?_⟩
    rw [encodeFrom_match hin hm, hrest _ _ (by omega)]

/-- A running encode whose cursor is not at the end has a byte at it. -/
theorem encode_byte_left {s : State} (h : Inv s) (henc : s.phase = .enc) (hend : s.i ≠ s.n) : s.i.toNat < s.n.toNat :=
  Nat.lt_of_le_of_ne (h.iBound henc) fun hc => hend (BitVec.eq_of_toNat_eq hc)

/-- ERR is 0 while an operation runs (R21). -/
theorem Inv.err_running {s : State} (h : Inv s) (hrun : s.phase ≠ .idle) : s.status.err = 0 :=
  h.errDone (Bool.eq_false_of_not_eq_true fun hdone => h.notBoth ⟨h.busyPhase.2 hrun, hdone⟩)

/-- Settles O28: at the end the encode succeeds, and before it only the engine's registers, LB and DST change. -/
theorem encodeNeverFails : Obligations.EncodeNeverFails := by
  intro s h hmoves henc
  by_cases hend : s.i = s.n
  · obtain ⟨t, hs, hidle, hstatus, -⟩ := encodeStepAtEnd s _ h hmoves henc hend rfl
    exact ⟨t, hs, by rw [hstatus], .inr ⟨hidle, hend⟩⟩
  · obtain ⟨t, bs, run, k, hs, hon, -⟩ :=
      encStep_goes_on (inv_takeTurn h) henc (encode_byte_left (inv_takeTurn h) henc hend)
    refine ⟨t, (step_encode hmoves henc).trans hs, ?_, .inl ?_⟩ <;> rw [hon.frame]
    · exact h.err_running (by simp [henc])
    · exact henc

/-- Where `o` answers a next state, the decode of `s` has ended or its cursor has moved, and not past the input (R99). -/
def EndsOrAdvances (s : State) (o : Host.Outcome State Fault Refusal) : Prop :=
  ∀ t, o = .next t → t.phase = .idle ∨ s.p.toNat < t.p.toNat ∧ t.p.toNat ≤ s.n.toNat

theorem endsOrAdvances_idle {s t : State} (h : t.phase = .idle) : EndsOrAdvances s (.next t) := by
  rintro _ ⟨⟩
  exact .inl h

/-- A token of `k` bytes that passes its checks. -/
theorem endsOrAdvances_token {s : State} (bs : List Byte) {k : Nat} (hk : 0 < k) (hp : s.p.toNat + k ≤ s.n.toNat) :
    EndsOrAdvances s (.next ((s.appendAll bs).advanceP k)) := by
  rintro _ ⟨⟩
  right
  rw [advanceP_p, appendAll_p, word_add_toNat _ _ (by omega)]
  omega

theorem execLit_endsOrAdvances (payload : List Byte) (s : State) : EndsOrAdvances s (execLit payload s) := by
  rcases execLit_cases payload s with ⟨-, he⟩ | ⟨-, -, he⟩ | ⟨hn, -, he⟩ <;> rw [he]
  · exact endsOrAdvances_idle rfl
  · exact endsOrAdvances_idle rfl
  · exact endsOrAdvances_token payload (by omega) (by omega)

theorem execBref_endsOrAdvances {s : State} (hcap : s.cfg.dstCap < 2 ^ 32) (d l : Nat) :
    EndsOrAdvances s (execBref d l s) := by
  rcases execBref_cases d l s hcap with ⟨-, he⟩ | ⟨-, -, he⟩ | ⟨-, -, -, -, he⟩ | ⟨hn, -, -, -, he⟩ <;> rw [he]
  · exact endsOrAdvances_idle rfl
  · exact endsOrAdvances_idle rfl
  · exact endsOrAdvances_idle rfl
  · exact endsOrAdvances_token _ two_pos hn

theorem decStep_endsOrAdvances {s : State} (hcap : s.cfg.dstCap < 2 ^ 32) : EndsOrAdvances s (decStep s) := by
  rcases decStep_cases s with ⟨-, hs⟩ | ⟨-, i, rest, htok, hs⟩ | ⟨-, -, hs⟩ | ⟨-, -, hs⟩ | ⟨-, -, hs⟩ <;> rw [hs]
  · exact endsOrAdvances_idle rfl
  · rcases decodeToken_ok htok with ⟨payload, rfl, -⟩ | ⟨d, l, rfl, -⟩
    · exact execLit_endsOrAdvances payload s
    · exact execBref_endsOrAdvances hcap d l
  · exact endsOrAdvances_idle rfl
  · exact endsOrAdvances_idle rfl
  · rintro _ ⟨⟩

/-- Settles O53, by the phase. -/
theorem engineStepAdvances : Obligations.EngineStepAdvances := by
  intro s t h hmoves hs
  refine ⟨fun henc ht => ?_, fun hdec ht => ?_⟩
  · by_cases hend : s.i = s.n
    · obtain ⟨t', hs', hidle, -⟩ := encodeStepAtEnd s _ h hmoves henc hend rfl
      cases hs'.symm.trans hs
      exact absurd hidle ht
    · obtain ⟨t', bs, run, k, hs', hon, hk, -⟩ :=
        encStep_goes_on (inv_takeTurn h) henc (encode_byte_left (inv_takeTurn h) henc hend)
      cases ((step_encode hmoves henc).trans hs').symm.trans hs
      exact ⟨hon.cursor ▸ Nat.lt_add_of_pos_right hk, hon.inside⟩
  · rw [step_engine hmoves, engineTurn, takeTurn_phase, hdec] at hs
    exact (decStep_endsOrAdvances (s := takeTurn s) h.dstCap_lt t hs).resolve_left ht

/-! ## An encode computes ENCODE (R79) -/

theorem dstByte_of_read {s : State} {k : Nat} {b : Byte} (h : s.dst.read k = some b) : dstByte s k = b := by
  rw [dstByte, h, Option.getD_some]

theorem output_length (s : State) : s.output.length = s.olen.toNat := by simp [State.output]

section
variable {s t : State} {bs : List Byte} (ha : AppendsExactly s t bs) (hlisted : ∀ k < s.olen.toNat, s.dst.read k ≠ none)
include ha hlisted

theorem AppendsExactly.output : t.output = s.output ++ bs := by
  obtain ⟨holen, hnew, hother⟩ := ha
  rw [State.output, holen, List.range_add, List.map_append, List.map_map]
  congr 1
  · refine List.map_congr_left fun k hk => ?_
    have hk := List.mem_range.1 hk
    obtain ⟨b, hb⟩ := Option.ne_none_iff_exists'.1 (hlisted k hk)
    rw [dstByte_of_read hb, dstByte_of_read ((hother k (.inl hk)).trans hb)]
  · refine List.ext_getElem (by simp) fun k _ hk => ?_
    simp [dstByte_of_read (hnew k hk)]

theorem AppendsExactly.listed : ∀ k < t.olen.toNat, t.dst.read k ≠ none := by
  obtain ⟨holen, hnew, hother⟩ := ha
  intro k hk
  rcases Nat.lt_or_ge k s.olen.toNat with hold | hge
  · rw [hother k (.inl hold)]
    exact hlisted k hold
  · obtain ⟨j, rfl⟩ := Nat.exists_eq_add_of_le hge
    simp [hnew j (by omega)]

end

/-- Completion reports the output (R107). -/
theorem reports_complete {s : State} (hlisted : ∀ k < s.olen.toNat, s.dst.read k ≠ none) :
    Reports (complete s) (.ok s.output) := by
  refine ⟨rfl, rfl, (output_length s).symm, fun j hj => ?_⟩
  rw [output_length] at hj
  obtain ⟨b, hb⟩ := Option.ne_none_iff_exists'.1 (hlisted j hj)
  rw [complete_dst, Memory.read_below, if_pos hj, hb]
  simp [State.output, dstByte_of_read hb]

/-- A step that goes on leaves the same answer to be given. -/
theorem encStep_remaining {s : State} (h : Inv s) (henc : s.phase = .enc) (hi : s.i.toNat < s.n.toNat) :
    ∃ t, encStep s = .next t ∧ t.phase = .enc ∧ encodeRemaining t = encodeRemaining s := by
  obtain ⟨t, bs, run, k, hs, hon, -, hround⟩ := encStep_goes_on h henc hi
  have hcfg : t.cfg = s.cfg := by rw [hon.frame]
  have hn : t.n = s.n := by rw [hon.frame]
  have hinput : t.input = s.input := by
    rw [hon.frame]
    rfl
  refine ⟨t, hs, by rw [hon.frame, henc], ?_⟩
  rw [encodeRemaining, encodeRemaining, hround, hon.appends.output (h.outputListed (by simp [henc])), hcfg, hn, hinput,
    hon.cursor, hon.pending, List.append_assoc]

/-- The step at the end gives the answer. -/
theorem encStep_reports {s : State} (h : Inv s) (henc : s.phase = .enc) (hin : s.i = s.n) :
    ∃ t, encStep s = .next t ∧ Reports t (.ok (encodeRemaining s)) := by
  obtain ⟨hfit, hs⟩ := encStep_end h henc hin
  have hlisted := h.outputListed (by simp [henc])
  have happ : AppendsExactly s { s.appendAll (litIfAny s.lb.seq) with lb := s.lb.clear } (litIfAny s.lb.seq) :=
    Appended.appendsExactly ⟨rfl, rfl, hfit⟩ h.dstCap_lt
  refine ⟨_, hs, ?_⟩
  rw [encodeRemaining, encodeFrom_end (by rw [input_length, hin]), ← happ.output hlisted]
  exact reports_complete (happ.listed hlisted)

/-- What only the model's own fields distinguish has the same answer to give. -/
theorem SameDcb.encodeRemaining_eq {s t : State} (hsame : SameDcb s t) (h : Inv s) (hrun : s.phase ≠ .idle) :
    encodeRemaining t = encodeRemaining s := by
  have happ : AppendsExactly s t [] := by
    rw [hsame]
    exact ⟨rfl, by simp, fun _ _ => rfl⟩
  have hout := happ.output (h.outputListed hrun)
  rw [List.append_nil] at hout
  rw [encodeRemaining, hout, hsame]
  rfl

/-- While BUSY, a host action is a reset or leaves the DCB as it is (R106, R109 to R111). -/
theorem hostAccess_busy_sameDcb {a : HostAction} {s t : State} (hb : s.status.busy = true)
    (h : hostAccess a s = .next t) : a = .reset ∨ SameDcb s t := by
  rcases hostAccess_next h with ⟨r, rfl⟩ | ⟨w, -, hc⟩ | ⟨w, rfl⟩ | rfl | ⟨k, b, -, rfl⟩ | ⟨k, b, -, rfl⟩ | ⟨ha, -⟩
  · exact .inr rfl
  · exact .inr (execCtrl_busy hb hc ▸ rfl)
  · exact .inr (by simp [SameDcb, writeSrcLen, hb])
  · exact .inr rfl
  · exact .inr (by simp [SameDcb, writeSrc, hb])
  · exact .inr (by simp [SameDcb, writeDst, hb])
  · exact .inl ha

/-- START_ENCODE leaves the whole of ENCODE to be answered (R72, R104). -/
theorem execStartEncode_remaining {s : State} (hb : s.status.busy = false) :
    ∃ t, execStartEncode s = .next t ∧
      encodeRemaining t = encodeBytes s.cfg.encOverlapSource ((List.range s.srcLen.toNat).map (srcByte s)) := by
  refine ⟨_, if_neg (by simp [hb]), ?_⟩
  rw [encodeRemaining, encodeBytes, LitBuf.clear_seq, List.length_map, List.length_range]
  rfl

/-- Settles O29, by who moves: the engine answers or leaves the answer to be given, and the host resets or leaves the DCB
as it is. -/
theorem encodeComputesEncodeUnderAnySchedule : Obligations.EncodeComputesEncodeUnderAnySchedule := by
  refine ⟨fun s _ hb => execStartEncode_remaining hb, fun s t h henc hs => ?_⟩
  have hrun : s.phase ≠ .idle := by simp [henc]
  have same : SameDcb s t → t.phase = .enc ∧ encodeRemaining t = encodeRemaining s := fun hsame =>
    ⟨by rw [hsame, henc], hsame.encodeRemaining_eq h hrun⟩
  rcases step_cases s with ⟨-, h'⟩ | ⟨hmoves, -⟩ | ⟨a, rest, hmoves, h'⟩ | ⟨-, -, -, h'⟩ | ⟨-, -, h'⟩
  case inr.inl =>
    rw [step_encode hmoves henc] at hs
    by_cases hend : s.i = s.n
    · obtain ⟨t', hs', hreports⟩ := encStep_reports (inv_takeTurn h) henc hend
      cases hs'.symm.trans hs
      exact .inr (.inl hreports)
    · obtain ⟨t', hs', hrest⟩ :=
        encStep_remaining (inv_takeTurn h) henc (encode_byte_left (inv_takeTurn h) henc hend)
      cases hs'.symm.trans hs
      exact .inl hrest
  all_goals rw [h'] at hs
  · cases hs
  · rcases hostAccess_busy_sameDcb (s := hostTook s rest) (h.busyPhase.2 hrun) hs with rfl | hsame
    · exact .inr (.inr ⟨rest, hmoves⟩)
    · exact .inl (same hsame)
  · cases hs
    exact .inl (same rfl)
  · cases hs
    exact .inl (same rfl)

end Sys2Proof.Machine
end

section
/-! The obligations of 42_decoder.md: what each step of a decode does and how it ends, that it computes DECODE under any
schedule, how many bytes DECODE may answer, and that DECODE undoes ENCODE. -/

namespace Sys2Proof.Machine

/-! ## Where a token raises an error, and which (R113) -/

/-- Settles O10: the two checks of DEC-LIT, in their order. -/
theorem litErrors : Obligations.LitErrors := by
  intro payload s
  exact ⟨fun hend => if_pos hend, fun hin hfull => (if_neg (Nat.not_lt.2 hin)).trans (if_pos hfull)⟩

/-- Settles O12: the checks of DEC-BREF, in their order. -/
theorem brefErrors : Obligations.BrefErrors := by
  intro d l s
  refine ⟨fun hend => if_pos hend, fun hin hbad => ?_, fun hin hd hd0 hfull => ?_⟩ <;>
    refine (if_neg (Nat.not_le.2 hin)).trans ?_
  · by_cases hfar : s.olen.toNat < d
    · exact if_pos hfar
    · exact (if_neg hfar).trans (if_pos (hbad.resolve_left hfar))
  · exact (if_neg (Nat.not_lt.2 hd)).trans ((if_neg hd0).trans (if_pos hfull))

/-! ## Where a token completes -/

theorem configValid_dstCap_lt {c : Config} (h : configValid c = true) : c.dstCap < 2 ^ 32 := by
  obtain ⟨-, hcap, -⟩ := (configValid_iff c).1 h
  omega

/-- From `s` to `t` a running decode went on: a token of `k` bytes appended `bs`. -/
structure DecodesOn (s t : State) (bs : List Byte) (k : Nat) : Prop where
  appends : AppendsExactly s t bs
  cursor : t.p.toNat = s.p.toNat + k
  frame : t = { s with p := t.p, olen := t.olen, dst := t.dst }

theorem decodesOn_token {s : State} {bs : List Byte} {k : Nat} (hcap : s.cfg.dstCap < 2 ^ 32)
    (hfit : s.olen.toNat + bs.length ≤ s.cfg.dstCap) (hk : s.p.toNat + k ≤ s.n.toNat) :
    DecodesOn s ((s.appendAll bs).advanceP k) bs k where
  appends := Appended.appendsExactly ⟨rfl, rfl, hfit⟩ hcap
  cursor := by rw [advanceP_p, appendAll_p, word_add_toNat _ _ (by omega)]
  frame := by rw [State.advanceP, appendAll_frame]

section
variable {s : State} (hcap : s.cfg.dstCap < 2 ^ 32)
include hcap

theorem execLit_decodesOn {payload : List Byte} (hin : s.p.toNat + 1 + payload.length ≤ s.n.toNat)
    (hfit : s.olen.toNat + payload.length ≤ s.cfg.dstCap) :
    ∃ t, execLit payload s = .next t ∧ DecodesOn s t payload (1 + payload.length) := by
  rcases execLit_cases payload s with ⟨hend, -⟩ | ⟨-, hfull, -⟩ | ⟨-, -, hs⟩
  · omega
  · omega
  · exact ⟨_, hs, decodesOn_token hcap hfit (by omega)⟩

theorem execBref_decodesOn {d l : Nat} (hin : s.p.toNat + 1 < s.n.toNat) (hd : d ≤ s.olen.toNat) (hd0 : d ≠ 0)
    (hfit : s.olen.toNat + l ≤ s.cfg.dstCap) :
    ∃ t, execBref d l s = .next t ∧ DecodesOn s t (copiedBytes s d l) 2 := by
  rcases execBref_cases d l s hcap with ⟨hend, -⟩ | ⟨-, hbad, -⟩ | ⟨-, -, -, hfull, -⟩ | ⟨-, -, -, -, hs⟩
  · omega
  · omega
  · omega
  · exact ⟨_, hs, decodesOn_token hcap (by simpa using hfit) hin⟩

end

/-- Settles O9: the payload is appended, and the cursor passes the count byte and the payload. -/
theorem litAppendsItsPayload : Obligations.LitAppendsItsPayload := by
  intro payload s hv hin hfit
  obtain ⟨t, hs, hon⟩ := execLit_decodesOn (configValid_dstCap_lt hv) hin hfit
  exact ⟨t, hs, hon.cursor.trans (Nat.add_assoc ..).symm, hon.appends, hon.frame⟩

/-- Settles O11: what the overlapping copy appends is R91's closed form (`copyBack_eq`). -/
theorem brefCopiesPeriodically : Obligations.BrefCopiesPeriodically := by
  intro d l s hv hin hd hd0 hfit
  obtain ⟨t, hs, hon⟩ := execBref_decodesOn (configValid_dstCap_lt hv) hin hd hd0 hfit
  exact ⟨t, hs, hon.cursor, hon.appends, hon.frame⟩

/-! ## The decoder's step (R87) -/

theorem step_decode {s : State} (hmoves : EngineMoves s) (hdec : s.phase = .dec) : step s = decStep (takeTurn s) := by
  rw [step_engine hmoves, engineTurn, takeTurn_phase, hdec]

theorem decStep_token {s : State} {i : Instr} {rest : List Byte} (hend : s.p ≠ s.n)
    (htok : decodeToken s.tokenBytes = .ok (i, rest)) : decStep s = exec i s := by
  rw [decStep, if_neg hend, htok]

/-- Settles O6: in a decode by the token at `p`, and for the host by its CTRL write. -/
theorem stepRunsDecodedInstruction : Obligations.StepRunsDecodedInstruction := by
  refine ⟨fun s i rest hmoves hdec hend htok => ?_, fun s w rest hmoves => ?_⟩
  · rw [step_decode hmoves hdec]
    exact decStep_token (s := takeTurn s) hend htok
  · rw [step_host hmoves]
    rfl

/-- The `L` bytes of SRC from index `k` on. -/
def srcBytes (s : State) (k L : Nat) : List Byte := (List.range L).map fun j => srcByte s (k + j)

@[simp] theorem srcBytes_length (s : State) (k L : Nat) : (srcBytes s k L).length = L := by simp [srcBytes]

section
variable {s : State} (hp : s.p.toNat < s.n.toNat)
include hp

theorem decode_not_at_end : s.p ≠ s.n := fun hend => hp.ne (congrArg BitVec.toNat hend)

/-- DEC-STEP on a byte with bit 7 clear is DEC-LIT of the bytes after it: the payload bytes the decoder misses are those
DEC-LIT's own check misses (R88, R92). -/
theorem decStep_lit {L : Nat} (hb : (srcByte s s.p.toNat).toNat = L) (hL : L < 128) :
    decStep s = execLit (srcBytes s (s.p.toNat + 1) L) s := by
  have htok := decodeToken_lit (srcByte s s.p.toNat) (s.input.drop (s.p.toNat + 1)) (by omega)
  rw [← tokenBytes_cons hp, hb, input_drop_length] at htok
  by_cases hmiss : s.n.toNat - (s.p.toNat + 1) < L
  · rw [if_pos hmiss] at htok
    rw [decStep, if_neg (decode_not_at_end hp), htok, execLit, if_pos (by rw [srcBytes_length]; omega)]
  · rw [if_neg hmiss, input_drop_take (by omega)] at htok
    exact decStep_token (decode_not_at_end hp) htok

/-- DEC-STEP on a byte with bit 7 set is DEC-BREF of the fields of the two bytes at the cursor: the second byte the
decoder misses is the one DEC-BREF's own check misses (R89, R93). -/
theorem decStep_bref (hb : 128 ≤ (srcByte s s.p.toNat).toNat) :
    decStep s = execBref (brefDistance (srcByte s s.p.toNat) (srcByte s (s.p.toNat + 1)))
      (brefLength (srcByte s (s.p.toNat + 1))) s := by
  by_cases hmiss : s.n.toNat ≤ s.p.toNat + 1
  · have htok : decodeToken s.tokenBytes = .error .missingSecondByte := by
      rw [tokenBytes_cons hp, List.drop_eq_nil_of_le (by rw [input_length]; exact hmiss), decodeToken_bref_alone _ hb]
    rw [decStep, if_neg (decode_not_at_end hp), htok, execBref, if_pos hmiss]
  · refine decStep_token (i := .bref _ _) (rest := s.input.drop (s.p.toNat + 1 + 1)) (decode_not_at_end hp) ?_
    have hin : s.p.toNat + 1 < s.input.length := by rw [input_length]; omega
    have hsecond : s.input[s.p.toNat + 1] = srcByte s (s.p.toNat + 1) := by simp [State.input]
    rw [tokenBytes_cons hp, List.drop_eq_getElem_cons hin, hsecond, decodeToken_bref _ _ _ hb]

end

/-- Settles O14: DEC-STEP is DEC-LIT of the bytes of SRC after the count byte. -/
theorem decodeStepOnLit : Obligations.DecodeStepOnLit := by
  intro s L hmoves hdec hp hb hL
  have hs : step s = exec (.lit (srcBytes s (s.p.toNat + 1) L)) (takeTurn s) :=
    (step_decode hmoves hdec).trans (decStep_lit (s := takeTurn s) hp hb hL)
  obtain ⟨htruncated, hoverflow⟩ := litErrors (srcBytes s (s.p.toNat + 1) L) (takeTurn s)
  have happends := litAppendsItsPayload (srcBytes s (s.p.toNat + 1) L) (takeTurn s) hmoves.1
  simp only [srcBytes_length, takeTurn_p, takeTurn_n, takeTurn_olen, takeTurn_cfg] at htruncated hoverflow happends
  rw [hs]
  exact ⟨fun hmiss => htruncated (by omega), fun hin hfull => hoverflow (by omega) hfull,
    fun hin hfit => happends (by omega) hfit⟩

/-- Settles O15: DEC-STEP is DEC-BREF of the two bytes' fields. -/
theorem decodeStepOnBref : Obligations.DecodeStepOnBref := by
  intro s b0 b1 d l hmoves hdec hp hb0 htag hb1 hd hl
  subst hb0 hb1
  rw [← brefDistance_eq] at hd
  rw [← brefLength_eq] at hl
  subst hd hl
  rw [(step_decode hmoves hdec).trans (decStep_bref (s := takeTurn s) hp htag)]
  obtain ⟨hmalformed, hinvalid, hoverflow⟩ := brefErrors _ _ (takeTurn s)
  exact ⟨hmalformed, hinvalid, hoverflow, brefCopiesPeriodically _ _ (takeTurn s) hmoves.1⟩

/-! ## How a decode ends (R97) -/

theorem ErrorKind.code_ne_zero (e : ErrorKind) : e.code ≠ 0 := by cases e <;> decide

/-- `o` is no success: where it answers a next state, an operation still runs or ERR is set. -/
def NoSuccess (o : Host.Outcome State Fault Refusal) : Prop :=
  ∀ t, o = .next t → t.phase = .idle → t.status.err ≠ 0

theorem noSuccess_raise (e : ErrorKind) (s : State) : NoSuccess (.next (raise e s)) := by
  rintro _ ⟨⟩ -
  exact e.code_ne_zero

theorem noSuccess_running {t : State} (hrun : t.phase = .dec) : NoSuccess (.next t) := by
  rintro _ ⟨⟩ hidle
  simp [hrun] at hidle

section
variable {s : State} (hdec : s.phase = .dec)
include hdec

theorem execLit_noSuccess (payload : List Byte) : NoSuccess (execLit payload s) := by
  rcases execLit_cases payload s with ⟨-, he⟩ | ⟨-, -, he⟩ | ⟨-, -, he⟩ <;> rw [he]
  · exact noSuccess_raise _ s
  · exact noSuccess_raise _ s
  · exact noSuccess_running (by simpa using hdec)

theorem execBref_noSuccess (hcap : s.cfg.dstCap < 2 ^ 32) (d l : Nat) : NoSuccess (execBref d l s) := by
  rcases execBref_cases d l s hcap with ⟨-, he⟩ | ⟨-, -, he⟩ | ⟨-, -, -, -, he⟩ | ⟨-, -, -, -, he⟩ <;> rw [he]
  · exact noSuccess_raise _ s
  · exact noSuccess_raise _ s
  · exact noSuccess_raise _ s
  · exact noSuccess_running (by simpa using hdec)

/-- Away from the end of the input a step of a decode is no success: a token raises an error or lets the decode go on. -/
theorem decStep_noSuccess (hcap : s.cfg.dstCap < 2 ^ 32) (hend : s.p ≠ s.n) : NoSuccess (decStep s) := by
  rcases decStep_cases s with ⟨hin, -⟩ | ⟨-, i, rest, htok, hs⟩ | ⟨-, -, hs⟩ | ⟨-, -, hs⟩ | ⟨-, -, hs⟩
  · exact absurd hin hend
  all_goals rw [hs]
  · rcases decodeToken_ok htok with ⟨payload, rfl, -⟩ | ⟨d, l, rfl, -⟩
    · exact execLit_noSuccess hdec payload
    · exact execBref_noSuccess hdec hcap d l
  · exact noSuccess_raise _ s
  · exact noSuccess_raise _ s
  · rintro _ ⟨⟩

end

theorem decStep_end {s : State} (hend : s.p = s.n) : decStep s = .next (complete s) := if_pos hend

/-- Settles O16: at the end the step is the completion, and away from it no success. -/
theorem decodeSucceedsExactlyAtEnd : Obligations.DecodeSucceedsExactlyAtEnd := by
  intro s hmoves hdec
  rw [step_decode hmoves hdec]
  refine ⟨⟨?_, fun hend => ⟨_, decStep_end (s := takeTurn s) hend, rfl, rfl⟩⟩, fun hend => ?_⟩
  · rintro ⟨t, hs, hidle, herr⟩
    by_contra hend
    exact decStep_noSuccess (s := takeTurn s) hdec (configValid_dstCap_lt hmoves.1) hend t hs hidle herr
  · refine ⟨_, decStep_end (s := takeTurn s) hend, rfl, rfl, rfl, fun j hj => ?_, fun j hj => ?_, rfl⟩
    · rw [complete_dst, Memory.read_below]
      exact if_pos hj
    · rw [complete_dst, Memory.read_below]
      exact if_neg (Nat.not_lt.2 hj)

/-! ## A decode computes DECODE (R100) -/

theorem reports_raise (e : ErrorKind) (s : State) : Reports (raise e s) (.error e) := ⟨rfl, rfl, rfl⟩

theorem output_getD {s : State} {k : Nat} (hk : k < s.olen.toNat) : s.output.getD k 0 = dstByte s k := by
  rw [List.getD_eq_getElem _ _ (by rwa [output_length])]
  simp [State.output]

/-- DECODE's copy loop on the output of a state appends what the machine's copy appends there (R91). -/
theorem copyOut_output {s : State} {d : Nat} (l : Nat) (hd : d ≤ s.olen.toNat) (hd0 : d ≠ 0) :
    copyOut d l s.output = s.output ++ copiedBytes s d l := by
  have hpos : 0 < d := Nat.pos_of_ne_zero hd0
  rw [copyOut_eq _ _ _ hpos (by rwa [output_length]), output_length]
  congr 1
  refine List.map_congr_left fun k _ => output_getD ?_
  have := Nat.mod_lt k hpos
  omega

/-- A decode that is not at the end has at least one more round of DECODE's loop to answer. -/
theorem decodeRemaining_round {s : State} (hp : s.p.toNat < s.n.toNat) : decodeRemaining s =
    decodeFrom s.cfg.dstCap s.input (s.n.toNat - (s.p.toNat + 1) + 1) s.p.toNat s.output := by
  rw [decodeRemaining, show s.n.toNat - s.p.toNat = s.n.toNat - (s.p.toNat + 1) + 1 by omega]

/-- `o` gives the answer `r` of a decode, or leaves it to be given. -/
def Answers (r : Except ErrorKind (List Byte)) (o : Host.Outcome State Fault Refusal) : Prop :=
  ∃ t, o = .next t ∧ (t.phase = .dec ∧ decodeRemaining t = r ∨ Reports t r)

theorem answers_raise (e : ErrorKind) (s : State) : Answers (.error e) (.next (raise e s)) :=
  ⟨_, rfl, .inr (reports_raise e s)⟩

section
variable {s : State} (h : Inv s) (hdec : s.phase = .dec)
include h hdec

/-- A token that passes its checks leaves the rest of DECODE's loop to be answered. -/
theorem answers_token {bs : List Byte} {fuel k : Nat} (hfit : s.olen.toNat + bs.length ≤ s.cfg.dstCap)
    (hk : s.p.toNat + k ≤ s.n.toNat) (henough : s.n.toNat ≤ s.p.toNat + k + fuel) :
    Answers (decodeFrom s.cfg.dstCap s.input fuel (s.p.toNat + k) (s.output ++ bs))
      (.next ((s.appendAll bs).advanceP k)) := by
  have hon := decodesOn_token h.dstCap_lt hfit hk
  have hinput : ((s.appendAll bs).advanceP k).input = s.input := input_congr (by simp) (by simp) (by simp)
  refine ⟨_, rfl, .inl ⟨by simpa using hdec, ?_⟩⟩
  rw [decodeRemaining, hon.cursor, hon.appends.output (h.outputListed (by simp [hdec])), hinput, advanceP_cfg,
    appendAll_cfg, advanceP_n, appendAll_n, decodeFrom_enough _ _ fuel _ _ (by rwa [input_length]), input_length]

variable (hp : s.p.toNat < s.n.toNat)
include hp

/-- DEC-LIT and a round of DECODE on a LIT make the same checks, in the same order, and append the same bytes. -/
theorem decStep_lit_answers (hb : (srcByte s s.p.toNat).toNat < 128) : Answers (decodeRemaining s) (decStep s) := by
  have hcount : litCount (srcByte s s.p.toNat) = (srcByte s s.p.toNat).toNat := by
    rw [litCount_eq, Nat.mod_eq_of_lt hb]
  rw [decStep_lit hp rfl hb, decodeRemaining_round hp,
    decodeFrom_lit (by rwa [input_length]) (input_getD hp) ((tagBit_eq_false_iff _).2 (by omega)), hcount, input_length,
    output_length]
  generalize (srcByte s s.p.toNat).toNat = L
  have hcases := execLit_cases (srcBytes s (s.p.toNat + 1) L) s
  rw [srcBytes_length] at hcases
  rcases hcases with ⟨hend, he⟩ | ⟨hin, hfull, he⟩ | ⟨hin, hfit, he⟩ <;> rw [he]
  · rw [if_pos hend]
    exact answers_raise _ s
  · rw [if_neg (Nat.not_lt.2 hin), if_pos hfull]
    exact answers_raise _ s
  · rw [if_neg (Nat.not_lt.2 hin), if_neg (Nat.not_lt.2 hfit), input_slice hin, Nat.add_assoc]
    exact answers_token (bs := srcBytes s (s.p.toNat + 1) L) h hdec (by rwa [srcBytes_length]) (by omega) (by omega)

/-- DEC-BREF and a round of DECODE on a BREF make the same checks, in the same order, and append the same bytes. -/
theorem decStep_bref_answers (hb : 128 ≤ (srcByte s s.p.toNat).toNat) : Answers (decodeRemaining s) (decStep s) := by
  have hround := fun b1 hb1 => decodeFrom_bref (cap := s.cfg.dstCap) (fuel := s.n.toNat - (s.p.toNat + 1))
    (out := s.output) (b1 := b1) (by rwa [input_length]) (input_getD hp) hb1 ((tagBit_eq_true_iff _).2 hb)
  rw [decStep_bref hp hb, decodeRemaining_round hp]
  by_cases hend : s.n.toNat ≤ s.p.toNat + 1
  · rw [hround _ rfl, input_length, if_pos hend, execBref, if_pos hend]
    exact answers_raise _ s
  · rw [hround _ (input_getD (by omega)), input_length, if_neg hend, output_length]
    generalize brefDistance _ _ = d
    generalize brefLength _ = l
    rcases execBref_cases d l s h.dstCap_lt with ⟨hend', -⟩ | ⟨-, hbad, he⟩ | ⟨-, hd, hd0, hfull, he⟩ |
      ⟨hin, hd, hd0, hfit, he⟩
    · exact absurd hend' hend
    all_goals rw [he]
    · rw [if_pos hbad]
      exact answers_raise _ s
    · rw [if_neg (by omega), if_pos hfull]
      exact answers_raise _ s
    · rw [if_neg (by omega), if_neg (by omega), copyOut_output l hd hd0]
      exact answers_token h hdec (by simpa using hfit) hin (by omega)

end

/-- A step of a running decode gives the answer or leaves it to be given. -/
theorem decStep_answers {s : State} (h : Inv s) (hdec : s.phase = .dec) : Answers (decodeRemaining s) (decStep s) := by
  by_cases hend : s.p = s.n
  · have hanswer : decodeRemaining s = .ok s.output := by
      rw [decodeRemaining, hend, ← input_length, decodeFrom_end]
    rw [decStep_end hend, hanswer]
    exact ⟨_, rfl, .inr (reports_complete (h.outputListed (by simp [hdec])))⟩
  · have hp := decode_byte_left h hdec hend
    rcases Nat.lt_or_ge (srcByte s s.p.toNat).toNat 128 with hlit | hbref
    · exact decStep_lit_answers h hdec hp hlit
    · exact decStep_bref_answers h hdec hp hbref

/-- The model's own fields, the draws among them, do not show in the output of a running operation. -/
theorem SameDcb.output_eq {s t : State} (hsame : SameDcb s t) (h : Inv s) (hrun : s.phase ≠ .idle) :
    t.output = s.output := by
  have happ : AppendsExactly s t [] := by
    rw [hsame]
    exact ⟨rfl, by simp, fun _ _ => rfl⟩
  rw [happ.output (h.outputListed hrun), List.append_nil]

/-- What only the model's own fields distinguish has the same answer to give. -/
theorem SameDcb.decodeRemaining_eq {s t : State} (hsame : SameDcb s t) (h : Inv s) (hrun : s.phase ≠ .idle) :
    decodeRemaining t = decodeRemaining s := by
  rw [decodeRemaining, hsame.output_eq h hrun, hsame]
  rfl

/-- Everything a step can do while an operation runs: the engine's turn, a reset, or nothing to the DCB. -/
theorem step_running_cases {s t : State} (h : Inv s) (hrun : s.phase ≠ .idle) (hs : step s = .next t) :
    engineTurn (takeTurn s) = .next t ∨ (∃ rest, HostMoves s .reset rest) ∨ SameDcb s t := by
  rcases step_cases s with ⟨-, h'⟩ | ⟨-, h'⟩ | ⟨a, rest, hmoves, h'⟩ | ⟨-, -, -, h'⟩ | ⟨-, -, h'⟩ <;> rw [h'] at hs
  · cases hs
  · exact .inl hs
  · rcases hostAccess_busy_sameDcb (s := hostTook s rest) (h.busyPhase.2 hrun) hs with rfl | hsame
    · exact .inr (.inl ⟨rest, hmoves⟩)
    · exact .inr (.inr hsame)
  · cases hs
    exact .inr (.inr rfl)
  · cases hs
    exact .inr (.inr rfl)

/-- START_DECODE leaves the whole of DECODE to be answered (R86, R105). -/
theorem execStartDecode_remaining {s : State} (hb : s.status.busy = false) :
    ∃ t, execStartDecode s = .next t ∧
      decodeRemaining t = decodeBytes s.cfg.dstCap ((List.range s.srcLen.toNat).map (srcByte s)) := by
  refine ⟨_, if_neg (by simp [hb]), ?_⟩
  rw [decodeRemaining, decodeBytes, List.length_map, List.length_range]
  rfl

/-- Settles O17, by who moves: the engine answers or leaves the answer to be given, and the host resets or leaves the DCB
as it is. -/
theorem decodeComputesDecodeUnderAnySchedule : Obligations.DecodeComputesDecodeUnderAnySchedule := by
  refine ⟨fun s _ hb => execStartDecode_remaining hb, fun s t h hdec hs => ?_⟩
  have hrun : s.phase ≠ .idle := by simp [hdec]
  rcases step_running_cases h hrun hs with hengine | hreset | hsame
  · rw [engineTurn, takeTurn_phase, hdec] at hengine
    obtain ⟨t', hs', hanswer⟩ := decStep_answers (inv_takeTurn h) hdec
    cases hs'.symm.trans hengine
    exact hanswer.imp_right .inl
  · exact .inr (.inr hreset)
  · exact .inl ⟨by rw [hsame, hdec], hsame.decodeRemaining_eq h hrun⟩

/-! ## How much DECODE may answer (R96, R129) -/

theorem brefLength_le (b1 : Byte) : brefLength b1 ≤ 16 := by
  rw [brefLength_eq]
  omega

/-- DECODE's loop does not overflow from where DST has 8 bytes left for each byte left of the stream: a LIT appends fewer
bytes than it takes, and a BREF takes 2 and appends at most 16. -/
theorem decodeFrom_roomy {cap : Nat} {C : List Byte} {fuel p : Nat} {out : List Byte}
    (hroom : out.length + 8 * (C.length - p) ≤ cap) : decodeFrom cap C fuel p out ≠ .error .outputOverflow := by
  induction fuel generalizing p out with
  | zero => simp [decodeFrom]
  | succ fuel ih =>
    by_cases hp : p < C.length
    · cases htag : tagBit (C.getD p 0)
      · rw [decodeFrom_lit hp rfl htag]
        split
        · simp
        next hin =>
          rw [if_neg (by omega)]
          exact ih (by rw [List.length_append, slice_length _ _ _ (by omega)]; omega)
      · have hlen := brefLength_le (C.getD (p + 1) 0)
        rw [decodeFrom_bref hp rfl rfl htag]
        split
        · simp
        next hin =>
          split
          · simp
          · rw [if_neg (by omega)]
            exact ih (by rw [copyOut_length]; omega)
    · rw [decodeFrom, if_neg hp]
      simp

/-- Settles O19: the bound of the whole loop, from cursor 0 with no output. -/
theorem roomyDecodeNeverOverflows : Obligations.RoomyDecodeNeverOverflows := by
  intro cap C hroom
  exact decodeFrom_roomy (by simpa using hroom)

/-! ## DECODE undoes ENCODE (R101)

DECODE's loop on a serialized token, with the stream cut at its cursor; then the induction over ENCODE's loop. -/

/-- DECODE's loop on the bytes `rest`, after the bytes `past` gave the output `out`. -/
def decodeRest (cap : Nat) (past rest out : List Byte) : Except ErrorKind (List Byte) :=
  decodeFrom cap (past ++ rest) rest.length past.length out

theorem decodeBytes_eq_decodeRest (cap : Nat) (C : List Byte) : decodeBytes cap C = decodeRest cap [] C [] := rfl

theorem decodeRest_nil (cap : Nat) (past out : List Byte) : decodeRest cap past [] out = .ok out := rfl

/-- The loop past a token `tok`, with rounds enough. -/
theorem decodeFrom_after_token {cap fuel : Nat} {past tok rest out : List Byte} (henough : rest.length ≤ fuel) :
    decodeFrom cap (past ++ (tok ++ rest)) fuel (past.length + tok.length) out =
      decodeRest cap (past ++ tok) rest out := by
  rw [decodeRest, decodeFrom_enough _ _ fuel _ _ (by simp; omega), List.append_assoc]
  congr 1
  · simp
    omega
  · simp

section
variable {cap : Nat} {past rest out : List Byte}

/-- A serialized LIT appends its payload, if that fits. -/
theorem decodeRest_lit {payload : List Byte} (hlen : payload.length ≤ 127) (hfit : out.length + payload.length ≤ cap) :
    decodeRest cap past (serLit payload ++ rest) out =
      decodeRest cap (past ++ serLit payload) rest (out ++ payload) := by
  have hbyte : (BitVec.ofNat 8 payload.length : Byte).toNat = payload.length := by
    rw [BitVec.toNat_ofNat]
    omega
  have hcount : litCount (BitVec.ofNat 8 payload.length) = payload.length := by
    rw [litCount_eq, hbyte]
    omega
  have hslice :
      slice (past ++ (serLit payload ++ rest)) (past.length + 1) (past.length + 1 + payload.length) = payload := by
    simp [slice, serLit, List.drop_append, List.drop_eq_nil_of_le]
  have hcursor : past.length + 1 + payload.length = past.length + (serLit payload).length := by
    rw [serLit_length]
    omega
  rw [decodeRest, List.length_append, serLit_length, Nat.add_right_comm,
    decodeFrom_lit (b0 := BitVec.ofNat 8 payload.length) (by simp) (by simp [serLit])
      ((tagBit_eq_false_iff _).2 (by omega)),
    hcount, if_neg (by simp; omega), if_neg (Nat.not_lt.2 hfit), hslice, hcursor]
  exact decodeFrom_after_token (by omega)

/-- A serialized BREF appends its copy, if its distance lies within the output and the copy fits. -/
theorem decodeRest_bref {d l : Nat} (hd1 : 1 ≤ d) (hdo : d ≤ out.length) (hd : d ≤ 2047) (hl1 : 1 ≤ l) (hl16 : l ≤ 16)
    (hfit : out.length + l ≤ cap) :
    decodeRest cap past (serBref d l ++ rest) out = decodeRest cap (past ++ serBref d l) rest (copyOut d l out) := by
  obtain ⟨b0, b1, hser, hb0, hb1⟩ := serBref_eq_pair hd hl1 hl16
  have hdistance : brefDistance b0 b1 = d := by
    rw [brefDistance_eq]
    omega
  have hlength : brefLength b1 = l := by
    rw [brefLength_eq]
    omega
  rw [hser, decodeRest, List.length_append, List.length_cons, List.length_singleton, Nat.add_right_comm,
    decodeFrom_bref (b0 := b0) (b1 := b1) (by simp) (by simp) (by simp) ((tagBit_eq_true_iff _).2 (by omega)),
    hdistance, hlength, if_neg (by simp), if_neg (by omega), if_neg (Nat.not_lt.2 hfit)]
  exact decodeFrom_after_token (tok := [b0, b1]) (by omega)

/-- A flushed run appends its bytes, if they fit. -/
theorem decodeRest_litIfAny {lb : List Byte} (hlen : lb.length ≤ 126) (hfit : out.length + lb.length ≤ cap) :
    decodeRest cap past (litIfAny lb ++ rest) out = decodeRest cap (past ++ litIfAny lb) rest (out ++ lb) := by
  unfold litIfAny
  split
  next hnil => simp [hnil]
  · exact decodeRest_lit (by omega) hfit

end

/-- Copying a match onto the bytes before it gives the bytes up to its end, overlapping or not. -/
theorem copyOut_take {S : List Byte} {i d l : Nat} (hd1 : 1 ≤ d) (hdi : d ≤ i) (hin : i + l ≤ S.length)
    (hmatch : ∀ t < l, S[i - d + t]? = S[i + t]?) : copyOut d l (S.take i) = S.take (i + l) := by
  induction l generalizing i with
  | zero => rfl
  | succ l ih =>
    have hbyte : (S.take i).getD ((S.take i).length - d) 0 = S.getD i 0 := by
      have h0 := hmatch 0 (by omega)
      rw [List.length_take, Nat.min_eq_left (by omega), List.getD, List.getElem?_take_of_lt (by omega)]
      exact congrArg (Option.getD · 0) h0
    rw [copyOut, hbyte, take_append_getD (by omega), ih (by omega) (by omega), Nat.add_right_comm, Nat.add_assoc]
    intro t ht
    have hnext := hmatch (t + 1) (by omega)
    rwa [show i - d + (t + 1) = i + 1 - d + t by omega, show i + (t + 1) = i + 1 + t by omega] at hnext

/-- What ENCODE emits from cursor `i` with the pending run `lb` completes the decoding to `S`, once everything before the
run has been decoded. -/
def DecodesToRest (cap : Nat) (S : List Byte) (i : Nat) (lb rest : List Byte) : Prop :=
  ∀ past out, out ++ lb = S.take i → decodeRest cap past rest out = .ok S

theorem encodeFrom_decodesToRest {overlap : Bool} {cap : Nat} {S : List Byte} (hcap : S.length ≤ cap) {fuel i : Nat}
    {lb : List Byte} (henough : S.length ≤ i + fuel) (hlb : lb.length ≤ 126) :
    DecodesToRest cap S i lb (encodeFrom overlap S fuel i lb) := by
  have fits : ∀ {i} {out lb : List Byte}, out ++ lb = S.take i → out.length + lb.length ≤ cap := fun hout => by
    rw [← List.length_append, hout]
    exact (List.length_take_le' ..).trans hcap
  refine encodeFrom_induction (P := DecodesToRest cap S) ?finished ?found ?full ?room henough hlb
  case finished =>
    intro i lb hend hlb past out hout
    rw [← List.append_nil (litIfAny lb), decodeRest_litIfAny hlb (fits hout), decodeRest_nil, hout,
      List.take_of_length_le hend]
  case found =>
    intro i lb d l rest hm hlb ih past out hout
    obtain ⟨hl3, hl16, hin, hd1, hdi, hd, hmatch, -⟩ := matchFind_some hm
    have hlen : (S.take i).length = i := by
      rw [List.length_take]
      omega
    rw [List.append_assoc, decodeRest_litIfAny hlb (fits hout), hout,
      decodeRest_bref hd1 (by omega) hd (by omega) hl16 (by omega), copyOut_take hd1 hdi hin hmatch]
    exact ih _ _ (List.append_nil _)
  case full =>
    intro i lb rest hi hlen ih past out hout
    have hnext : out ++ (lb ++ [S.getD i 0]) = S.take (i + 1) := by
      rw [← List.append_assoc, hout, take_append_getD hi]
    rw [decodeRest_lit (by simp [hlen]) (fits hnext), hnext]
    exact ih _ _ (List.append_nil _)
  case room =>
    intro i lb rest hi ih past out hout
    refine ih past out ?_
    rw [← List.append_assoc, hout, take_append_getD hi]

/-- Settles O20: the induction of the whole loop, from cursor 0 with nothing pending and nothing decoded. -/
theorem decodeOfEncodeIsTheInput : Obligations.DecodeOfEncodeIsTheInput := by
  intro overlap cap S hcap
  rw [decodeBytes_eq_decodeRest]
  exact encodeFrom_decodesToRest hcap (by omega) (by simp) [] [] rfl

end Sys2Proof.Machine
end

section
/-! The obligations of 43_host_commands.md: what each command does, what a register read returns, and the host's accesses
to SRC. -/

namespace Sys2Proof.Machine

/-! ## The commands -/

/-- Settles O34, by whether BUSY is set. -/
theorem setModeWritesMode : Obligations.SetModeWritesMode := by
  intro m s
  exact ⟨fun hidle => if_neg (Bool.eq_false_iff.1 hidle), fun hbusy => if_pos hbusy⟩

/-- Settles O35, by whether BUSY is set: clearing LB leaves the empty literal run. -/
theorem startEncodeBeginsAnEncode : Obligations.StartEncodeBeginsAnEncode := by
  intro s
  refine ⟨fun hidle => ?_, fun hbusy => if_pos hbusy⟩
  have hstart : exec .startEncode s = .next { startOperation .encode .enc s with i := 0, lb := s.lb.clear } :=
    if_neg (Bool.eq_false_iff.1 hidle)
  exact ⟨_, hstart, rfl, rfl, rfl, rfl, rfl, LitBuf.clear_seq s.lb, rfl, rfl⟩

/-- Settles O36, by whether BUSY is set. -/
theorem startDecodeBeginsADecode : Obligations.StartDecodeBeginsADecode := by
  intro s
  exact ⟨fun hidle => if_neg (Bool.eq_false_iff.1 hidle), fun hbusy => if_pos hbusy⟩

/-! ## Register reads -/

theorem ctrlWord_toNat (m : Mode) : (ctrlWord m).toNat = if m = .decode then 2 else 0 := by
  cases m <;> rfl

/-- The fields of STATUS stand side by side, ERR above DONE above BUSY (R21, R108). -/
theorem Status.toWord_toNat (t : Status) : t.toWord.toNat = t.err.toNat * 4 + t.done.toNat * 2 + t.busy.toNat := by
  have happend : ∀ {m k : Nat} (x : BitVec m) (y : BitVec k), (x ++ y).toNat = x.toNat * 2 ^ k + y.toNat := by
    intro m k x y
    rw [BitVec.toNat_append, ← Nat.shiftLeft_add_eq_or_of_lt y.isLt, Nat.shiftLeft_eq]
  simp only [Status.toWord, happend, BitVec.toNat_ofNat, BitVec.toNat_ofBool]
  omega

theorem eq_statusStarted {t : Status} (hbusy : t.busy = true) (hdone : t.done = false) (herr : t.err = 0) :
    t = statusStarted := by
  obtain ⟨busy, done, err⟩ := t
  cases hbusy
  cases hdone
  cases herr
  rfl

/-- While an operation runs, STATUS is as the START command set it (R21, R108). -/
theorem Inv.status_running {s : State} (h : Inv s) (hrun : s.phase ≠ .idle) : s.status = statusStarted := by
  have hbusy : s.status.busy = true := h.busyPhase.2 hrun
  have hdone : s.status.done = false := Bool.eq_false_of_not_eq_true fun hdone => h.notBoth ⟨hbusy, hdone⟩
  exact eq_statusStarted hbusy hdone (h.err_running hrun)

theorem readRegister_idle_dstLen {s : State} (hidle : s.status.busy = false) : readRegister s 3 = s.dstLen :=
  if_neg (Bool.eq_false_iff.1 hidle)

theorem readRegister_above (s : State) {r : Nat} (hr : 4 ≤ r) : readRegister s r = 0 := by
  obtain ⟨k, rfl⟩ := Nat.exists_eq_add_of_le' hr
  rfl

/-- Settles O38, by the register index: the host's turn leaves every register, so the answer is read from `s` itself. -/
theorem registerReadValues : Obligations.RegisterReadValues := by
  intro s r rest hmoves
  refine ⟨_, readRegister s r, step_host hmoves, rfl, ?_, ?_, ?_, ?_, ?_, readRegister_above s, rfl⟩
  · rintro rfl
    exact ctrlWord_toNat s.mode
  · rintro rfl
    exact s.status.toWord_toNat
  · rintro rfl h hrun
    rw [readRegister, h.status_running hrun]
    rfl
  · rintro rfl
    rfl
  · rintro rfl
    exact readRegister_idle_dstLen

/-! ## SRC through the host (R110) -/

theorem writeSrc_idle {s : State} (hidle : s.status.busy = false) (k : Nat) (b : Byte) :
    writeSrc k b s = { s with src := s.src.write k b } :=
  if_neg (Bool.eq_false_iff.1 hidle)

theorem srcByte_writeSrc_same {s : State} (hidle : s.status.busy = false) (k : Nat) (b : Byte) :
    srcByte (writeSrc k b s) k = b := by
  simp [writeSrc_idle hidle, srcByte]

theorem srcByte_writeSrc_other (s : State) {k j : Nat} (b : Byte) (hj : j ≠ k) :
    srcByte (writeSrc k b s) j = srcByte s j := by
  unfold writeSrc
  split
  · rfl
  · simp only [srcByte, Memory.read_write_other _ b hj]

/-- Settles O41: the write's own index reads the new byte and the others read as before, and a read answers the byte of
`s`, whose SRC the host's turn leaves. -/
theorem srcAccesses : Obligations.SrcAccesses := by
  intro s k b rest hk
  refine ⟨fun hmoves hidle => ?_, fun hmoves => ?_⟩
  · have hwrite : step s = .next (writeSrc k b (hostTook s rest)) := (step_host hmoves).trans (if_pos hk)
    have hsame : srcByte (writeSrc k b (hostTook s rest)) k = b :=
      srcByte_writeSrc_same (s := hostTook s rest) hidle k b
    refine ⟨_, hwrite, hsame, fun j hj => srcByte_writeSrc_other (hostTook s rest) b hj, ?_⟩
    rw [writeSrc_idle (s := hostTook s rest) hidle]
  · exact ⟨_, (step_host hmoves).trans (if_pos hk), rfl⟩

end Sys2Proof.Machine
end

section
/-! The obligations of 60_exceptions.md: the error completion, and how long STATUS reports a result. -/

namespace Sys2Proof.Machine

/-- Settles O13, error by error: `raise` writes the same four fields, and ERR is the error's code (R112). -/
theorem errorCompletion : Obligations.ErrorCompletion := by
  intro s
  exact ⟨rfl, rfl, rfl, rfl⟩

/-! ## What changes STATUS while no operation runs (R115) -/

/-- The word of a START command has the START bit set (R59). -/
theorem Starts.startBit {w : Word} {ph : Phase} (h : Starts w ph) : w &&& 0x1#32 = 0x1#32 := by
  have hlow : w &&& 0x1#32 = (w &&& 0x3#32) &&& 0x1#32 := (BitVec.and_assoc w 0x3#32 0x1#32).symm
  obtain ⟨-, hw⟩ | ⟨-, hw⟩ := h <;> rw [hlow, hw] <;> rfl

@[simp] theorem writeSrcLen_status (w : Word) (s : State) : (writeSrcLen w s).status = s.status := by
  unfold writeSrcLen
  split
  · rfl
  · split <;> rfl

@[simp] theorem writeSrc_status (k : Nat) (b : Byte) (s : State) : (writeSrc k b s).status = s.status := by
  unfold writeSrc
  split <;> rfl

@[simp] theorem writeDst_status (k : Nat) (b : Byte) (s : State) : (writeDst k b s).status = s.status := by
  unfold writeDst
  split <;> rfl

/-- A CTRL write keeps STATUS or starts an operation (R103 to R106). -/
theorem execCtrl_status {w : Word} {s t : State} (h : exec (decodeCtrl w) s = .next t) :
    t.status = s.status ∨ Starts w t.phase := by
  rcases execCtrl_cases w s with ⟨-, h'⟩ | ⟨-, -, m, h'⟩ | ⟨-, hw, h'⟩ | ⟨-, hw, h'⟩ <;> cases h'.symm.trans h
  · exact .inl rfl
  · exact .inl rfl
  · exact .inr (.inl ⟨rfl, hw⟩)
  · exact .inr (.inr ⟨rfl, hw⟩)

/-- A host action keeps STATUS, is a START command, or is a reset. -/
theorem hostAccess_status {a : HostAction} {s t : State} (h : hostAccess a s = .next t) :
    t.status = s.status ∨ (∃ w, a = .regWrite 0 w ∧ Starts w t.phase) ∨ a = .reset := by
  rcases hostAccess_next h with ⟨r, rfl⟩ | ⟨w, rfl, hc⟩ | ⟨w, rfl⟩ | rfl | ⟨k, b, -, rfl⟩ | ⟨k, b, -, rfl⟩ | ⟨rfl, -⟩
  · exact .inl rfl
  · exact (execCtrl_status hc).imp_right fun hstart => .inl ⟨w, rfl, hstart⟩
  · exact .inl (writeSrcLen_status w s)
  · exact .inl rfl
  · exact .inl (writeSrc_status k b s)
  · exact .inl (writeDst_status k b s)
  · exact .inr (.inr rfl)

/-- Settles O55, by who moves: only a host action can change STATUS while idle, and of those only a START command and a
reset do. -/
theorem resultKeptUntilStartOrReset : Obligations.ResultKeptUntilStartOrReset := by
  intro s t hidle hs hchanged
  rcases step_cases s with ⟨-, h⟩ | ⟨-, h⟩ | ⟨a, rest, hmoves, h⟩ | ⟨-, -, -, h⟩ | ⟨-, -, h⟩ <;> rw [h] at hs
  · cases hs
  · rw [engineTurn_idle (s := takeTurn s) hidle] at hs
    cases hs
    exact absurd rfl hchanged
  · rcases hostAccess_status hs with hkept | ⟨w, rfl, hstart⟩ | rfl
    · exact absurd hkept hchanged
    · exact .inl ⟨w, rest, hmoves, hstart.startBit⟩
    · exact .inr ⟨rest, hmoves⟩
  · cases hs
    exact absurd rfl hchanged
  · cases hs
    exact absurd rfl hchanged

end Sys2Proof.Machine
end

section
/-! The obligations of 70_reset_and_hazards.md: the reset state (R124, R125), and that the host's writes while BUSY are
ignored (R127). -/

namespace Sys2Proof.Machine

/-! ## Writes while BUSY (R127) -/

section
variable {s : State} (hb : s.status.busy = true)
include hb

theorem execCtrl_busy_ignored (w : Word) : exec (decodeCtrl w) s = .next s := by
  obtain ⟨t, ht⟩ := execCtrl_answers w s
  rwa [execCtrl_busy hb ht] at ht

theorem writeRegister_busy (r : Nat) (w : Word) : writeRegister r w s = .next s := by
  rcases writeRegister_cases r w s with ⟨-, h⟩ | ⟨-, h⟩ | ⟨-, -, h⟩ <;> rw [h]
  · exact execCtrl_busy_ignored hb w
  · rw [writeSrcLen, if_pos hb]

theorem writeSrc_busy (k : Nat) (b : Byte) : writeSrc k b s = s := if_pos hb

theorem writeDst_busy (k : Nat) (b : Byte) : writeDst k b s = s := if_pos hb

end

/-- Settles O37, by the kind of write: each asks for BUSY before it writes, and the host's turn keeps STATUS. -/
theorem writesWhileBusyIgnored : Obligations.WritesWhileBusyIgnored := by
  intro s a rest hmoves hb ha
  have hb' : (hostTook s rest).status.busy = true := hb
  rw [step_host hmoves]
  rcases ha with ⟨r, w, rfl⟩ | ⟨k, b, rfl, hk⟩ | ⟨k, b, rfl, hk⟩
  · exact writeRegister_busy hb' r w
  · exact (if_pos hk).trans (congrArg _ (writeSrc_busy hb' k b))
  · exact (if_pos hk).trans (congrArg _ (writeDst_busy hb' k b))

/-! ## Reset (R124, R125) -/

/-- The literal run is empty after reset, whatever its array holds (R124). -/
theorem resetDcb_lb_seq (s : State) : (resetDcb s).lb.seq = [] := (seq_eq_nil_iff _).2 rfl

/-- Settles O45: the host's action is `resetDcb`, which writes every field the statement names whatever the DCB held, and
keeps the configuration and the host's further actions. -/
theorem resetFromAnyState : Obligations.ResetFromAnyState := by
  intro s rest hmoves
  exact ⟨resetDcb (hostTook s rest), step_host hmoves, rfl, rfl, rfl, rfl, rfl, resetDcb_lb_seq _, rfl, rfl, rfl, rfl, rfl,
    rfl, rfl, rfl⟩

/-- Every register index reads 0 after reset, in every configuration (R124, R19). -/
theorem readRegister_resetOf (c : Config) (r : Nat) : readRegister (State.resetOf c) r = 0 := by
  match r with
  | 0 => exact (by decide : ctrlWord .encode = 0)
  | 1 => exact (by decide : Status.toWord { busy := false, done := false, err := 0 } = 0)
  | 2 => rfl
  | 3 => exact readRegister_idle_dstLen rfl
  | r + 4 => exact readRegister_above _ (Nat.le_add_left 4 r)

/-- Settles O46, by the register index, in every configuration at once. -/
theorem resetRegistersReadZero : Obligations.ResetRegistersReadZero :=
  readRegister_resetOf Config.standard

/-- Settles O47: `State.reset` is the reset state of one accepted configuration. -/
theorem invariantAtReset : Obligations.InvariantAtReset :=
  ⟨inv_resetOf (by decide), fun _ hc => inv_resetOf hc⟩

end Sys2Proof.Machine
end

section
/-! The obligations about a whole operation: where the engine moves first (log 3), a START command is followed by a run to
the answer of ENCODE or DECODE (R79, R100). Also what the host reads and writes in DST (R111). -/

namespace Sys2Proof.Machine

/-! ## What the engine's turn leaves alone -/

/-- From `s` to `t` only fields the engine writes changed: its own registers, LB, DST and what reports the result. -/
def EngineWrote (s t : State) : Prop :=
  t = { s with phase := t.phase, i := t.i, lb := t.lb, p := t.p, olen := t.olen, status := t.status, dstLen := t.dstLen,
               dst := t.dst }

theorem EngineWrote.trans {s t u : State} (hst : EngineWrote s t) (htu : EngineWrote t u) : EngineWrote s u := by
  rw [EngineWrote, htu, hst]

theorem engineWrote_token (s : State) (bs : List Byte) (k : Nat) : EngineWrote s ((s.appendAll bs).advanceP k) := by
  rw [appendAll_frame]
  rfl

theorem execLit_engineWrote {payload : List Byte} {s t : State} (ht : execLit payload s = .next t) : EngineWrote s t := by
  rcases execLit_cases payload s with ⟨-, he⟩ | ⟨-, -, he⟩ | ⟨-, -, he⟩ <;> cases he.symm.trans ht
  · rfl
  · rfl
  · exact engineWrote_token s payload _

theorem execBref_engineWrote {d l : Nat} {s t : State} (hcap : s.cfg.dstCap < 2 ^ 32) (ht : execBref d l s = .next t) :
    EngineWrote s t := by
  rcases execBref_cases d l s hcap with ⟨-, he⟩ | ⟨-, -, he⟩ | ⟨-, -, -, -, he⟩ | ⟨-, -, -, -, he⟩ <;>
    cases he.symm.trans ht
  · rfl
  · rfl
  · rfl
  · exact engineWrote_token s _ 2

theorem decStep_engineWrote {s t : State} (hcap : s.cfg.dstCap < 2 ^ 32) (ht : decStep s = .next t) :
    EngineWrote s t := by
  rcases decStep_cases s with ⟨-, hs⟩ | ⟨-, i, rest, htok, hs⟩ | ⟨-, -, hs⟩ | ⟨-, -, hs⟩ | ⟨-, -, hs⟩ <;> rw [hs] at ht
  · cases ht
    rfl
  · rcases decodeToken_ok htok with ⟨payload, rfl, -⟩ | ⟨d, l, rfl, -⟩
    · exact execLit_engineWrote ht
    · exact execBref_engineWrote hcap ht
  · cases ht
    rfl
  · cases ht
    rfl
  · cases ht

theorem encStep_engineWrote {s t : State} (h : Inv s) (henc : s.phase = .enc) (ht : encStep s = .next t) :
    EngineWrote s t := by
  by_cases hend : s.i = s.n
  · cases (encStep_end h henc hend).2.symm.trans ht
    rw [appendAll_frame]
    rfl
  · obtain ⟨u, bs, run, k, hs, hon, -⟩ := encStep_goes_on h henc (encode_byte_left h henc hend)
    cases hs.symm.trans ht
    rw [EngineWrote, hon.frame]

theorem engineTurn_engineWrote {s t : State} (h : Inv s) (ht : engineTurn s = .next t) : EngineWrote s t := by
  unfold engineTurn at ht
  split at ht
  next =>
    cases ht
    rfl
  next henc => exact encStep_engineWrote h henc ht
  next => exact decStep_engineWrote h.dstCap_lt ht

/-! ## One step of an operation that runs with no turns prescribed -/

/-- The input the running operation has not consumed. -/
def inputLeft (s : State) : Nat :=
  match s.phase with
  | .idle => 0
  | .enc => s.n.toNat - s.i.toNat
  | .dec => s.n.toNat - s.p.toNat

/-- What the running operation will report: an encode has no error to report (R80). -/
def pendingResult (s : State) : Except ErrorKind (List Byte) :=
  match s.phase with
  | .enc => .ok (encodeRemaining s)
  | _ => decodeRemaining s

theorem inputLeft_enc {s : State} (henc : s.phase = .enc) : inputLeft s = s.n.toNat - s.i.toNat := by
  rw [inputLeft, henc]

theorem inputLeft_dec {s : State} (hdec : s.phase = .dec) : inputLeft s = s.n.toNat - s.p.toNat := by
  rw [inputLeft, hdec]

theorem pendingResult_enc {s : State} (henc : s.phase = .enc) : pendingResult s = .ok (encodeRemaining s) := by
  rw [pendingResult, henc]

theorem pendingResult_dec {s : State} (hdec : s.phase = .dec) : pendingResult s = decodeRemaining s := by
  rw [pendingResult, hdec]

theorem takeTurn_eq_self {s : State} (hturns : s.turns = []) : takeTurn s = s := by
  rw [takeTurn, hturns, List.tail_nil, ← hturns]

/-- After the list of turns, a running operation has the next move (R131, log 3). -/
theorem engineMoves_of_running {s : State} (h : Inv s) (hrun : s.phase ≠ .idle) (hturns : s.turns = []) :
    EngineMoves s :=
  ⟨h.config, by simp [nextTurn, hturns, hrun]⟩

/-- After the list of turns, an idle engine leaves the next move to the host. -/
theorem hostMoves_of_idle {s : State} {a : HostAction} {rest : List HostAction} (h : Inv s) (hidle : s.phase = .idle)
    (hturns : s.turns = []) (hhost : s.host = a :: rest) : HostMoves s a rest :=
  ⟨h.config, by simp [nextTurn, hturns, hidle, hhost], hhost⟩

theorem EngineMoves.not_hostMoves {s : State} {a : HostAction} {rest : List HostAction} (he : EngineMoves s) :
    ¬ HostMoves s a rest := by
  rintro ⟨-, hhost, -⟩
  cases he.2.symm.trans hhost

/-- An engine step reports the pending result, or leaves the same one pending with less input before it: what O29 and O17
say of the two phases, with O53's progress. -/
theorem step_reports_or_progresses {s t : State} (h : Inv s) (hrun : s.phase ≠ .idle) (hmoves : EngineMoves s)
    (hs : step s = .next t) (hn : t.n = s.n) :
    Reports t (pendingResult s) ∨ t.phase ≠ .idle ∧ pendingResult t = pendingResult s ∧ inputLeft t < inputLeft s := by
  obtain ⟨hencode, hdecode⟩ := engineStepAdvances s t h hmoves hs
  match hphase : s.phase with
  | .idle => exact absurd hphase hrun
  | .enc =>
    rw [pendingResult_enc hphase, inputLeft_enc hphase]
    rcases encodeComputesEncodeUnderAnySchedule.2 s t h hphase hs with ⟨henc, hsame⟩ | hreports | ⟨rest, hreset⟩
    · have hnot : t.phase ≠ .idle := by simp [henc]
      obtain ⟨hless, hin⟩ := hencode hphase hnot
      rw [pendingResult_enc henc, inputLeft_enc henc, hsame, hn]
      exact .inr ⟨hnot, rfl, by omega⟩
    · exact .inl hreports
    · exact absurd hreset hmoves.not_hostMoves
  | .dec =>
    rw [pendingResult_dec hphase, inputLeft_dec hphase]
    rcases decodeComputesDecodeUnderAnySchedule.2 s t h hphase hs with ⟨hdec, hsame⟩ | hreports | ⟨rest, hreset⟩
    · have hnot : t.phase ≠ .idle := by simp [hdec]
      obtain ⟨hless, hin⟩ := hdecode hphase hnot
      rw [pendingResult_dec hdec, inputLeft_dec hdec, hsame, hn]
      exact .inr ⟨hnot, rfl, by omega⟩
    · exact .inl hreports
    · exact absurd hreset hmoves.not_hostMoves

/-! ## A whole operation -/

theorem run_succ {s t : State} (hs : step s = .next t) (k : Nat) :
    Host.Core.run core (k + 1) s = Host.Core.run core k t := by
  simp only [Host.Core.run, show core.step s = .next t from hs]

/-- A running operation with no turns prescribed comes to report its pending result, one step for each byte of input left
at most and one for the end: by induction on the input left. -/
theorem running_reports {s : State} (h : Inv s) (hrun : s.phase ≠ .idle) (hturns : s.turns = []) :
    ∃ k t, k ≤ inputLeft s + 1 ∧ Host.Core.run core k s = .next t ∧ EngineWrote s t ∧ Reports t (pendingResult s) := by
  induction hleft : inputLeft s using Nat.strong_induction_on generalizing s with
  | _ left ih =>
    have hmoves := engineMoves_of_running h hrun hturns
    obtain ⟨t, ht⟩ := engineTurn_answers h
    have hs : step s = .next t := by rw [step_engine hmoves, takeTurn_eq_self hturns, ht]
    have hwrote : EngineWrote s t := engineTurn_engineWrote h ht
    have hn : t.n = s.n := by rw [hwrote]
    rcases step_reports_or_progresses h hrun hmoves hs hn with hreports | ⟨hrun', hsame, hless⟩
    · exact ⟨1, t, by omega, run_succ hs 0, hwrote, hreports⟩
    · have hturns' : t.turns = [] := by rw [hwrote, hturns]
      obtain ⟨k, u, hk, hu, hwrote', hreports⟩ :=
        ih _ (hleft ▸ hless) (stepKeepsInvariant s t h hs) hrun' hturns' rfl
      exact ⟨k + 1, u, by omega, (run_succ hs k).trans hu, hwrote.trans hwrote', hsame ▸ hreports⟩

theorem not_busy_of_idle {s : State} (h : Inv s) (hidle : s.phase = .idle) : s.status.busy = false :=
  Bool.eq_false_of_not_eq_true fun hbusy => h.busyPhase.1 hbusy hidle

/-- A CTRL write that begins an operation is followed by a run that reports the operation's pending result: one step for
the write, the others the engine's. The run keeps what the command has set of MODE and what the host has set up. -/
theorem started_reports {s t : State} {w : Word} {rest : List HostAction} (h : Inv s) (hidle : s.phase = .idle)
    (hturns : s.turns = []) (hhost : s.host = .regWrite 0 w :: rest)
    (hstart : exec (decodeCtrl w) (hostTook s rest) = .next t) (hrun : t.phase ≠ .idle)
    (hframe : t = { hostTook s rest with mode := t.mode, n := t.n, status := t.status, phase := t.phase, i := t.i,
                                         lb := t.lb, p := t.p, olen := t.olen }) :
    ∃ k u, k ≤ inputLeft t + 2 ∧ Host.Core.run core k s = .next u ∧ u.host = rest ∧ u.mode = t.mode ∧ u.src = s.src ∧
      u.srcLen = s.srcLen ∧ Reports u (pendingResult t) := by
  have hs : step s = .next t :=
    (stepRunsDecodedInstruction.2 s w rest (hostMoves_of_idle h hidle hturns hhost)).trans hstart
  have hturns' : t.turns = [] := hframe ▸ congrArg List.tail hturns
  obtain ⟨k, u, hk, hu, hwrote, hreports⟩ := running_reports (stepKeepsInvariant s t h hs) hrun hturns'
  refine ⟨k + 1, u, by omega, (run_succ hs k).trans hu, ?_, ?_, ?_, ?_, hreports⟩ <;> rw [hwrote]
  all_goals
    rw [hframe]
    rfl

/-- Settles O18: the CTRL write begins a decode with the whole input left and DECODE of it pending. -/
theorem decodeOperationComputesDecode : Obligations.DecodeOperationComputesDecode := by
  intro s w rest h hidle hturns hhost hw
  have hbusy : (hostTook s rest).status.busy = false := not_busy_of_idle (inv_hostTook h rest) hidle
  obtain ⟨t, ht, hpending⟩ := decodeComputesDecodeUnderAnySchedule.1 _ (inv_hostTook h rest) hbusy
  cases ((startDecodeBeginsADecode (hostTook s rest)).1 hbusy).symm.trans ht
  rw [← (controlWordDecodes w).2.2 hw] at ht
  rw [← pendingResult_dec rfl] at hpending
  have hreports := started_reports h hidle hturns hhost ht (by simp) rfl
  rwa [hpending] at hreports

/-- Settles O30: the CTRL write begins an encode with the whole input left and ENCODE of it pending. -/
theorem encodeOperationComputesEncode : Obligations.EncodeOperationComputesEncode := by
  intro s w rest h hidle hturns hhost hw
  have hbusy : (hostTook s rest).status.busy = false := not_busy_of_idle (inv_hostTook h rest) hidle
  obtain ⟨t, ht, hpending⟩ := encodeComputesEncodeUnderAnySchedule.1 _ (inv_hostTook h rest) hbusy
  obtain ⟨t', ht', hmode, hn, -, henc, hi, -, -, hframe⟩ := (startEncodeBeginsAnEncode (hostTook s rest)).1 hbusy
  cases ht'.symm.trans ht
  rw [← (controlWordDecodes w).2.1 hw] at ht
  have hleft : inputLeft t = s.srcLen.toNat := by
    rw [inputLeft_enc henc, hn, hi]
    rfl
  have hreports := started_reports h hidle hturns hhost ht (by simp [henc]) (by rw [hframe])
  rwa [hleft, hmode, pendingResult_enc henc, hpending] at hreports

/-! ## DST through the host (R111) -/

theorem writeDst_idle {s : State} (hidle : s.status.busy = false) (k : Nat) (b : Byte) :
    writeDst k b s = { s with dst := s.dst.write k b } :=
  if_neg (Bool.eq_false_iff.1 hidle)

/-- A read of a specified byte returns it, while no operation runs. -/
theorem readDst_specified {s : State} {k : Nat} {b : Byte} (hidle : s.status.busy = false)
    (hb : s.dst.read k = some b) : readDst s k = b :=
  (if_neg (Bool.eq_false_iff.1 hidle)).trans (dstByte_of_read hb)

theorem step_dstRead {s : State} {k : Nat} {rest : List HostAction} (hmoves : HostMoves s (.dstRead k) rest)
    (hk : k < s.cfg.dstCap) :
    step s = .next (answer (.byte (readDst (hostTook s rest) k)) (hostTook s rest)) :=
  (step_host hmoves).trans (if_pos hk)

/-- Settles O42: the write is `Memory.write`, and a read answers `readDst`, whatever BUSY is. -/
theorem dstAccesses : Obligations.DstAccesses := by
  intro s k b rest hk
  refine ⟨fun hmoves hidle => ?_, fun hmoves hidle hb => ?_, fun hmoves => ?_⟩
  · have hwrite : step s = .next (writeDst k b (hostTook s rest)) := (step_host hmoves).trans (if_pos hk)
    rw [writeDst_idle (s := hostTook s rest) hidle] at hwrite
    exact ⟨_, hwrite, Memory.read_write_same _ k b, fun j hj => Memory.read_write_other _ b hj, rfl⟩
  · have hread : readDst (hostTook s rest) k = b := readDst_specified (s := hostTook s rest) hidle hb
    exact ⟨_, step_dstRead hmoves hk, by rw [hread]; rfl⟩
  · exact ⟨_, _, step_dstRead hmoves hk, rfl⟩

end Sys2Proof.Machine
end
